-- ==== Sys2Proof/Word.lean ====
section
/-! DEFINITION. The word, table and packet types of GOST28147-CORE (spec/00_scope.md R6, R8, R9; spec/10_state.md R20;
spec/30_encoding.md R70). Types only: everything that computes stands in Decode.lean or under Machine/. -/

namespace Sys2Proof

/-- A byte (R9). -/
abbrev Byte := BitVec 8

/-- A `u32` (R8): a sub-key, a block half, an address, a length or a packet word. -/
abbrev Word := BitVec 32

/-- A `u4` (R8): an S-box entry, an opcode or a select code. -/
abbrev Nibble := BitVec 4

/-- A substitution table of 128 four-bit entries, eight sub-tables of sixteen (R24, R27). -/
abbrev SBox := Vector Nibble 128

/-- The working key: eight 32-bit sub-keys (R22). -/
abbrev WorkingKey := Vector Word 8

/-- An 8-byte block (R13, "Block"). -/
abbrev Block := Vector Byte 8

/-- The table ROM, eight tables indexed by the select code (R26). -/
abbrev TableRom := Vector SBox 8

/-- A command packet: five 32-bit words presented together on the command port (R70). -/
structure Packet where
  w0 : Word
  w1 : Word
  w2 : Word
  w3 : Word
  w4 : Word
  deriving DecidableEq, Repr

/-- The internal state of one block transform: the halves `N1`, `N2` and the round counter `ROUND` (R20, R28, R29). -/
structure Halves where
  n1 : Word
  n2 : Word
  round : BitVec 5
  deriving DecidableEq, Repr, Inhabited

/-- The direction of a block transform (R73, R146, R147). -/
inductive Direction where
  | encrypt
  | decrypt
  deriving DecidableEq, Repr

/-- A stretch of `size` bytes of buffer memory from address `base` upward: an operand region (R52), or a stretch of
addresses the platform backs (R51). -/
structure Region where
  base : Nat
  size : Nat
  deriving DecidableEq, Repr

end Sys2Proof
end

