-- ==== Sys2Proof/Config.lean ====
section
/-! DEFINITION. What is fixed for the machine (spec/00_scope.md R6), its open parameters (R7) and the free values the
spec leaves unspecified (spec/93_implementation_defined.md I1, I2, I3, I7). An `opaque` constant has no body: no proof
can see its value. -/

namespace Sys2Proof.Config

/-- KEY_BYTES (R6): the only key length INIT accepts. -/
abbrev keyBytes : Nat := 32

/-- BLOCK_BYTES (R6): the size of a block, and of a window of a buffer. -/
abbrev blockBytes : Nat := 8

/-- Buffer memory spans `2^ADDR_W` bytes with ADDR_W = 32 (R7, R50). -/
abbrev addressSpace : Nat := 4294967296

/-- OPEN parameter (R7, R26, I1): the entry values of SBOX_DEFAULT, table 0, and SBOX_ROM[1..7]. They are what the
reset state's ROM holds; log entry 1. -/
opaque sboxRom : TableRom

/-- OPEN parameter MEM_ADMIT (R7, R51): the addresses the platform backs, as stretches of addresses. It is what the
reset state's platform map holds; log entry 2. -/
opaque backedRegions : List Region

/-- FREE VALUE (R37, I2): what WK[0..7] holds after a reset, for each draw; log entry 4. -/
opaque freeKey : Nat → WorkingKey

/-- FREE VALUE (R28, R37, I3): what N1, N2 and ROUND hold outside a transform, for each draw; log entry 5. -/
opaque freeHalves : Nat → Halves

/-- FREE VALUE (R231, I7): what a reset that abandons a command leaves in a byte of the command's destination region,
for each draw and each address; log entry 6. -/
opaque freeByte : Nat → Nat → Byte

end Sys2Proof.Config
end

