-- ==== Sys2Proof/Machine/State.lean ====
section
/-! DEFINITION. The state of the machine (spec/10_state.md R20), the buffer memory the host owns (spec/20_memory.md
R50), what the outside does to the block (spec/00_scope.md R12, spec/70_reset_and_hazards.md R230, R235), the reasons a
step stops, and the state after reset (R37). -/

namespace Sys2Proof.Machine

/-- The outcome codes STATUS.ERR can hold (R201). Codes 7 to 15 are never written, so they have no name (I8). -/
inductive ErrCode where
  | ok
  | invalidKeyLength
  | unknownSBox
  | engineNotInitialized
  | bufferTooShort
  | illegalCommand
  | rangeError
  deriving DecidableEq, Repr

/-- Buffer memory, sparse: strictly rising addresses, no entry equal to what an unlisted address reads as. -/
abbrev Memory := List Host.Cell

/-- One turn of one of the two agents (R12): the engine takes a step, or the host acts on the block or its memory, or
the platform asserts reset (R230). -/
inductive Turn where
  /-- The engine executes the accepted command, or idles (R219). -/
  | engine
  /-- The host presents a packet on the command port (R70). -/
  | present (p : Packet)
  /-- The host writes one byte of buffer memory (R50, R62). -/
  | write (a : Word) (b : Byte)
  /-- The host reads one byte of buffer memory (R50, R62). -/
  | read (a : Word)
  /-- The reset input is asserted (R230, R231). -/
  | reset
  deriving DecidableEq, Repr

/-- The machine: one engine instance (R20, R38), the buffer memory it reaches and the platform's parameters. -/
structure State where
  /-- READY (R21); also bit 1 of STATUS (R33). -/
  ready : Bool
  /-- WK[0..7] (R22). -/
  wk : WorkingKey
  /-- SBOX[0..127], the active table (R24). -/
  sbox : SBox
  /-- STATUS.ERR (R30, R31). -/
  err : ErrCode
  /-- N1, N2 and ROUND (R28, R29). -/
  halves : Halves
  /-- SBOX_ROM[0..7], constant (R26, R27). -/
  rom : TableRom
  /-- The packet accepted and not yet completed; STATUS.BUSY is 1 exactly when there is one (R30, R32). -/
  current : Option Packet
  /-- Buffer memory (R50). -/
  mem : Memory
  /-- MEM_ADMIT: the stretches of addresses the platform backs, constant (R51, R59). -/
  backed : List Region
  /-- The turns still to be taken, first one first; when there is none left, the engine takes them all. The model's own. -/
  turns : List Turn
  /-- How many free values have been drawn. The model's own. -/
  draws : Nat
  /-- The first error any command completed with, never cleared (R211, I6). The model's own. -/
  firstError : Option ErrCode
  deriving DecidableEq, Repr

/-- Why the machine has no next state. -/
inductive Fault where
  /-- The engine is stuck: `memRead` or `memWrite` would touch a byte the platform does not back (R51, I5). STATUS.BUSY
  stays 1 in the state the engine cannot leave. Raised by all five commands; safe. -/
  | stuckUnbacked
  deriving DecidableEq, Repr

/-- Why a turn has no meaning. -/
inductive Refusal where
  /-- An instruction without a meaning; exec's arms alone could raise it, and none does; safe. -/
  | notModelled (mnemonic : String)
  /-- The host presents a packet while BUSY is 1 (R235, I4); raised by `presentTurn`; safe. -/
  | packetWhileBusy
  /-- The host writes a byte of the executing command's regions (R235, I4); raised by `writeTurn`; safe. -/
  | writeWhileBusy
  /-- The host reads a byte of the executing command's destination region (R235, I4); raised by `readTurn`; safe. -/
  | readWhileBusy
  /-- The host accesses an address the platform does not back (R59); raised by `writeTurn` and `readTurn`; safe. -/
  | hostUnbacked
  deriving DecidableEq, Repr

/-- What a step answers. -/
abbrev Result := Host.Outcome State Fault Refusal

/-- The state after reset (R37, R230). The ROM and the platform map are the open parameters; SBOX is the copy of
SBOX_ROM[0] that R37 gives. DESIGN CHOICE: WK is zero (log entry 3), N1, N2 and ROUND are zero (log entry 5), and memory
lists nothing (log entry 7). -/
def State.reset : State where
  ready := false
  wk := Vector.replicate 8 0
  sbox := Config.sboxRom[0]
  err := .ok
  halves := ⟨0, 0, 0⟩
  rom := Config.sboxRom
  current := none
  mem := []
  backed := Config.backedRegions
  turns := []
  draws := 0
  firstError := none

end Sys2Proof.Machine
end

