-- ==== Sys2Proof/Machine/Flags.lean ====
section
/-! DEFINITION. STATUS, the block's only flags (spec/10_state.md R30 to R33, R35), as a view of the state: each field has
one home, and the reserved bits are hardwired to 0. -/

namespace Sys2Proof.Machine

/-- The 4-bit code of an outcome (R201). -/
def ErrCode.code : ErrCode → BitVec 4
  | .ok => 0
  | .invalidKeyLength => 1
  | .unknownSBox => 2
  | .engineNotInitialized => 3
  | .bufferTooShort => 4
  | .illegalCommand => 5
  | .rangeError => 6

/-- STATUS.BUSY (R30, R32): a packet is accepted and its command has not completed. -/
def State.busy (s : State) : Bool := s.current.isSome

/-- STATUS, as the status port returns it on every read (R30, R70): bits 31:8 zero, ERR, bits 3:2 zero, READY, BUSY. -/
def State.status (s : State) : Word :=
  0#24 ++ s.err.code ++ 0#2 ++ BitVec.ofBool s.ready ++ BitVec.ofBool s.busy

end Sys2Proof.Machine
end

