-- ==== Sys2Proof/Syntax.lean ====
section
/-! DEFINITION. The five commands of the opcode table (spec/30_encoding.md R72; spec/opcode_table.json), with their
operands. An operand word a command ignores (R80) is no part of it. -/

namespace Sys2Proof

/-- A decoded command (R81). Every operand value of these widths has an encoding. -/
inductive Instr where
  /-- INIT: select code SEL, key address KADDR, key length KLEN (R78, R102). -/
  | init (sel : Nibble) (kaddr klen : Word)
  /-- ENCB: encrypt one block (R79, R160). -/
  | encb (src slen dst dlen : Word)
  /-- DECB: decrypt one block (R79, R161). -/
  | decb (src slen dst dlen : Word)
  /-- ENCN: encrypt a buffer of windows (R79, R162). -/
  | encn (src slen dst dlen : Word)
  /-- DECN: decrypt a buffer of windows (R79, R163). -/
  | decn (src slen dst dlen : Word)
  deriving DecidableEq, Repr

end Sys2Proof
end

