-- ==== Sys2Proof/Decode.lean ====
section
/-! DEFINITION. The command encoding (spec/30_encoding.md): the fields of the command word, the decoder, total on every
packet, and the encoder written from the same tables. -/

namespace Sys2Proof

/-- OP, bits 3:0 of the command word (R71). -/
def Packet.op (p : Packet) : Nibble := p.w0.extractLsb' 0 4

/-- SEL, bits 7:4 of the command word (R71, R74). -/
def Packet.sel (p : Packet) : Nibble := p.w0.extractLsb' 4 4

/-- RSV, bits 31:8 of the command word (R71, R76). -/
def Packet.rsv (p : Packet) : BitVec 24 := p.w0.extractLsb' 8 24

/-- The three ways a packet can be illegal (R77). -/
inductive Illegal where
  /-- RSV is nonzero (R76). -/
  | reservedField
  /-- OP is 0x0 or 0x6 to 0xF (R72). -/
  | reservedOpcode
  /-- OP is 0x2 to 0x5 and SEL is nonzero (R75). -/
  | selectNotZero
  deriving DecidableEq, Repr

/-- A block command's packet: legal when SEL is zero (R75). -/
def decodeBlock (p : Packet) (mk : Word → Word → Word → Word → Instr) : Except Illegal Instr :=
  if p.sel = 0 then .ok (mk p.w1 p.w2 p.w3 p.w4) else .error .selectNotZero

/-- The decoder (R81). Its two last lines are the spec's one `Illegal`, split by cause. -/
def decode (p : Packet) : Except Illegal Instr :=
  if p.rsv ≠ 0 then .error .reservedField
  else if p.op = 1 then .ok (.init p.sel p.w1 p.w2)
  else if p.op = 2 then decodeBlock p .encb
  else if p.op = 3 then decodeBlock p .decb
  else if p.op = 4 then decodeBlock p .encn
  else if p.op = 5 then decodeBlock p .decn
  else .error .reservedOpcode

/-- The packet of a command (R72, R83): the command word, then the operand words, zero where a command ignores one. -/
def encode : Instr → Packet
  | .init sel kaddr klen => ⟨sel.setWidth 32 <<< 4 ||| 0x1, kaddr, klen, 0, 0⟩
  | .encb src slen dst dlen => ⟨0x2, src, slen, dst, dlen⟩
  | .decb src slen dst dlen => ⟨0x3, src, slen, dst, dlen⟩
  | .encn src slen dst dlen => ⟨0x4, src, slen, dst, dlen⟩
  | .decn src slen dst dlen => ⟨0x5, src, slen, dst, dlen⟩

/-- The packet whose bits are the low `nbits` bits of `v`, numbered from bit 0 of W0 upward; the bits above are zero. -/
def Packet.ofBits (nbits v : Nat) : Packet :=
  let bits := v % 2 ^ nbits
  ⟨BitVec.ofNat 32 bits, BitVec.ofNat 32 (bits >>> 32), BitVec.ofNat 32 (bits >>> 64),
    BitVec.ofNat 32 (bits >>> 96), BitVec.ofNat 32 (bits >>> 128)⟩

/-- The command the decoder reads from bits numbered as spec/opcode_table.json numbers them. -/
def decodeTableWord (nbits w : Nat) : Option Instr :=
  match decode (Packet.ofBits nbits w) with
  | .ok i => some i
  | .error _ => none

end Sys2Proof
end

