-- ==== Sys2Proof/Machine/Operands.lean ====
section
/-! DEFINITION. The operands of the commands: byte order (spec/20_memory.md R53, R54), the range of a region (R52), and
the regions a command names (spec/70_reset_and_hazards.md R231, R235). -/

namespace Sys2Proof.Machine

/-- `LE32(b0, b1, b2, b3)` (R9). -/
def le32 (b0 b1 b2 b3 : Byte) : Word :=
  b0.setWidth 32 ||| b1.setWidth 32 <<< 8 ||| b2.setWidth 32 <<< 16 ||| b3.setWidth 32 <<< 24

/-- Byte `i` of `LE32⁻¹(w)`, that is `w[8i+7:8i]` (R9). -/
def le32Byte (w : Word) (i : Nat) : Byte := w.extractLsb' (8 * i) 8

/-- A region `(a, n)` is in range: its unbounded sum is at most 2^32 (R52). -/
def inRange (a n : Nat) : Bool := decide (a + n ≤ Config.addressSpace)

/-- Address `a` lies in region `r`. -/
def inRegion (r : Region) (a : Nat) : Bool := decide (r.base ≤ a) && decide (a < r.base + r.size)

/-- The destination region of an executing command: (DST, DLEN) for a block command, none for INIT (R231, R235). -/
def destinationOf : Instr → List Region
  | .init _ _ _ => []
  | .encb _ _ dst dlen => [⟨dst.toNat, dlen.toNat⟩]
  | .decb _ _ dst dlen => [⟨dst.toNat, dlen.toNat⟩]
  | .encn _ _ dst dlen => [⟨dst.toNat, dlen.toNat⟩]
  | .decn _ _ dst dlen => [⟨dst.toNat, dlen.toNat⟩]

/-- The source region of an executing command: (KADDR, 32) for INIT, (SRC, SLEN) for a block command (R235). -/
def sourceOf : Instr → Region
  | .init _ kaddr _ => ⟨kaddr.toNat, Config.keyBytes⟩
  | .encb src slen _ _ => ⟨src.toNat, slen.toNat⟩
  | .decb src slen _ _ => ⟨src.toNat, slen.toNat⟩
  | .encn src slen _ _ => ⟨src.toNat, slen.toNat⟩
  | .decn src slen _ _ => ⟨src.toNat, slen.toNat⟩

/-- The destination regions of an accepted packet; an illegal packet has none. -/
def packetDestination (p : Packet) : List Region :=
  match decode p with
  | .ok i => destinationOf i
  | .error _ => []

/-- The regions of an accepted packet that the host must not write (R235); an illegal packet has none. -/
def packetRegions (p : Packet) : List Region :=
  match decode p with
  | .ok i => sourceOf i :: destinationOf i
  | .error _ => []

end Sys2Proof.Machine
end

