-- ==== Sys2Proof/Machine/Ops.lean ====
section
/-! DEFINITION. The operations all commands share: buffer memory a byte at a time (spec/20_memory.md R50, R51), how a
command ends (spec/00_scope.md R10, spec/60_exceptions.md R200, R210), and the updates of the engine's registers. -/

namespace Sys2Proof.Machine

/-- What an address reads as that no write has listed. DESIGN CHOICE: 0, as the programs of spec/95_test_vectors.md
section 3 have it (R37 leaves it to the platform); log entry 7. -/
def unlistedByte : Byte := 0

/-- The byte `M[a]` (R51). -/
def Memory.read : Memory → Nat → Byte
  | [], _ => unlistedByte
  | c :: m, a => if a = c.1 then c.2 else Memory.read m a

/-- The memory cells `m` with `b` listed in front at `a`, unless an unlisted address reads as `b` already. -/
def Memory.put (a : Nat) (b : Byte) (m : Memory) : Memory := if b = unlistedByte then m else (a, b) :: m

/-- `M[a] <- b` (R51), keeping the canonical form. -/
def Memory.write : Memory → Nat → Byte → Memory
  | [], a, b => Memory.put a b []
  | c :: m, a, b =>
    if a < c.1 then Memory.put a b (c :: m)
    else if a = c.1 then Memory.put a b m
    else c :: Memory.write m a b

/-- `M[a+i] <- B[i]` in increasing `i` (R51). -/
def Memory.writeList : Memory → Nat → List Byte → Memory
  | m, _, [] => m
  | m, a, b :: bs => Memory.writeList (Memory.write m a b) (a + 1) bs

/-- The canonical form: addresses strictly rising, no entry equal to what an unlisted address reads as. -/
def Memory.wf : Memory → Bool
  | [] => true
  | c :: m => decide (c.2 ≠ unlistedByte) && m.all (fun d => decide (c.1 < d.1)) && Memory.wf m

/-- MEM_ADMIT (R51): address `a` exists (R50) and the platform backs it. -/
def State.admits (s : State) (a : Nat) : Bool :=
  decide (a < Config.addressSpace) && s.backed.any (fun r => inRegion r a)

/-- Every byte of the `n` from address `a` is backed. -/
def State.admitsAll (s : State) (a n : Nat) : Bool := (List.range n).all (fun i => s.admits (a + i))

/-- The list `[M[a], M[a+1], .., M[a+n−1]]` (R51). -/
def Memory.bytes (m : Memory) (a n : Nat) : Vector Byte n := Vector.ofFn fun i => m.read (a + i)

/-- `MemRead(a, n)` (R51); `none` is the stuck engine. -/
def memRead (s : State) (a n : Nat) : Option (Vector Byte n) :=
  if s.admitsAll a n then some (s.mem.bytes a n) else none

/-- The state with other memory contents. -/
def State.withMem (s : State) (m : Memory) : State := { s with mem := m }

/-- `MemWrite(a, n, B)` (R51); `none` is the stuck engine. -/
def memWrite (s : State) (a n : Nat) (bytes : Vector Byte n) : Option State :=
  if s.admitsAll a n then some (s.withMem (s.mem.writeList a bytes.toList)) else none

/-- `finish` (R10): the command completes, BUSY falls and ERR becomes OK (R31, R32). -/
def State.finish (s : State) : State := { s with current := none, err := .ok }

/-- `raise E` (R10, R200, R210): the command completes with code `e`, and BUSY falls (R31, R32). Of the engine's state
only ERR is written; the model's own record keeps the first error there has been (R211, I6). -/
def State.raise (s : State) (e : ErrCode) : State :=
  { s with current := none, err := e, firstError := some (s.firstError.getD e) }

/-- The command ends with an error (R200): a next state, since the block has no traps and takes the next packet. -/
def raised (e : ErrCode) (s : State) : Result := .next (s.raise e)

/-- The command ends: with `finish`, or stuck at an unbacked byte (R51). -/
def completed : Option State → Result
  | some s => .next s.finish
  | none => .fault .stuckUnbacked

/-- What a successful INIT writes (R102, R104): WK whole, SBOX whole, and READY. -/
def State.loadKey (s : State) (wk : WorkingKey) (sbox : SBox) : State := { s with ready := true, wk := wk, sbox := sbox }

/-- The state with other halves (R28). -/
def State.setHalves (s : State) (h : Halves) : State := { s with halves := h }

/-- A transform has ended: N1, N2 and ROUND hold any value (R28, R149, I3); log entry 5. -/
def State.releaseHalves (s : State) : State := { s with halves := Config.freeHalves s.draws, draws := s.draws + 1 }

/-- The packet is accepted, and BUSY rises (R30, R70). -/
def State.accept (s : State) (p : Packet) : State := { s with current := some p }

/-- The state with other turns to come. -/
def State.withTurns (s : State) (ts : List Turn) : State := { s with turns := ts }

end Sys2Proof.Machine
end

