-- ==== Sys2Proof/Machine/Round.lean ====
section
/-! DEFINITION. The round function (spec/41_round_function.md R120 to R124): a pure function of the half, the sub-key and
the active table. -/

namespace Sys2Proof.Machine

/-- Step (a), the modular add (R120). -/
def modAdd (n1 subkey : Word) : Word := subkey + n1

/-- Nibble `i` of a word, `cm[4i+3:4i]` (R121). -/
def nibble (w : Word) (i : Nat) : Nibble := w.extractLsb' (4 * i) 4

/-- Entry `x` of sub-table `i`, that is `SBOX[16*i + x]` (R24). -/
def sboxEntry (t : SBox) (i : Fin 8) (x : Nibble) : Nibble := t[16 * i.val + x.toNat]

/-- The eight lanes of the substitution, least significant first. -/
def lanes : List (Fin 8) := [0, 1, 2, 3, 4, 5, 6, 7]

/-- Step (b), the nibble substitution `Subst(cm)` (R121). -/
def subst (t : SBox) (cm : Word) : Word :=
  lanes.foldl (fun om i => om ||| (sboxEntry t i (nibble cm i)).setWidth 32 <<< (4 * i.val)) 0

/-- `rotl32(x, n)` (R8). -/
def rotl32 (x : Word) (n : Nat) : Word := x <<< n ||| x >>> (32 - n)

/-- The round function `F(n1, subkey)` with table `t` (R123). -/
def roundF (t : SBox) (n1 subkey : Word) : Word := rotl32 (subst t (modAdd n1 subkey)) 11

end Sys2Proof.Machine
end

