-- ==== Sys2Proof/Machine/Feistel.lean ====
section
/-! DEFINITION. The Feistel engine (spec/42_feistel_engine.md R140 to R149): a block transform as a pure function, and
the engine's transform, which runs it in N1, N2 and ROUND. -/

namespace Sys2Proof.Machine

/-- Unpacking (R140): the halves of a block, at the first round (R29). -/
def unpack (b : Block) : Halves :=
  ⟨le32 b[0] b[1] b[2] b[3], le32 b[4] b[5] b[6] b[7], 1⟩

/-- Packing (R145): `LE32⁻¹(N1) ++ LE32⁻¹(N2)`. -/
def pack (h : Halves) : Block :=
  #v[le32Byte h.n1 0, le32Byte h.n1 1, le32Byte h.n1 2, le32Byte h.n1 3,
     le32Byte h.n2 0, le32Byte h.n2 1, le32Byte h.n2 2, le32Byte h.n2 3]

/-- The swapping round with sub-key index `j` (R141). -/
def swapRound (t : SBox) (wk : WorkingKey) (h : Halves) (j : Fin 8) : Halves :=
  ⟨h.n2 ^^^ roundF t h.n1 wk[j], h.n1, h.round + 1⟩

/-- The final, 32nd round (R144). -/
def finalRound (t : SBox) (wk : WorkingKey) (h : Halves) : Halves :=
  { h with n2 := h.n2 ^^^ roundF t h.n1 wk[0] }

/-- One pass over the sub-keys forward. -/
def forwardPass : List (Fin 8) := [0, 1, 2, 3, 4, 5, 6, 7]

/-- One pass over the sub-keys in reverse. -/
def reversePass : List (Fin 8) := [7, 6, 5, 4, 3, 2, 1, 0]

/-- The last seven swapping rounds of either direction: a reverse pass whose index 0 is left to the final round. -/
def lastPass : List (Fin 8) := [7, 6, 5, 4, 3, 2, 1]

/-- ENC_ORDER (R142) and DEC_ORDER (R143). -/
def keyOrder : Direction → List (Fin 8)
  | .encrypt => forwardPass ++ forwardPass ++ forwardPass ++ lastPass
  | .decrypt => forwardPass ++ reversePass ++ reversePass ++ lastPass

/-- The 32 rounds of a transform (R146, R147). -/
def runRounds (t : SBox) (wk : WorkingKey) (d : Direction) (h : Halves) : Halves :=
  finalRound t wk ((keyOrder d).foldl (swapRound t wk) h)

/-- `EncryptBlock(B)` or `DecryptBlock(B)` (R146, R147) with table `t` and sub-keys `wk`. -/
def cryptBlock (t : SBox) (wk : WorkingKey) (d : Direction) (b : Block) : Block := pack (runRounds t wk d (unpack b))

/-- The engine transforms one block: it loads the halves, runs the rounds in them, packs them, and leaves no value of
them behind (R28, R140, R145, R149). -/
def transform (d : Direction) (b : Block) (s : State) : Block × State :=
  let loaded := s.setHalves (unpack b)
  let ran := loaded.setHalves (runRounds loaded.sbox loaded.wk d loaded.halves)
  (pack ran.halves, ran.releaseHalves)

end Sys2Proof.Machine
end

