-- ==== Sys2Proof/Machine/Codec.lean ====
section
/-! DEFINITION. The block codec: ENCB, DECB, ENCN and DECN (spec/43_block_codec.md R160 to R166). -/

namespace Sys2Proof.Machine

/-- One window: read its 8 source bytes, transform them, write its 8 destination bytes (R61). `none` is the stuck
engine. -/
def window (d : Direction) (src dst : Nat) (s : State) : Option State :=
  match memRead s src 8 with
  | some b => memWrite (transform d b s).2 dst 8 (transform d b s).1
  | none => none

/-- `n` windows in increasing order, each written before the next is read (R61, R162, R163). -/
def windows (d : Direction) : Nat → Nat → Nat → State → Option State
  | 0, _, _, s => some s
  | n + 1, src, dst, s =>
    match window d src dst s with
    | some s' => windows d n (src + 8) (dst + 8) s'
    | none => none

/-- The single-block command in direction `d` (R160, R161), its checks in the order of R209. -/
def singleBlock (d : Direction) (src slen dst dlen : Word) (s : State) : Result :=
  if s.ready = false then raised .engineNotInitialized s
  else if slen.toNat < 8 then raised .bufferTooShort s
  else if dlen.toNat < 8 then raised .bufferTooShort s
  else if inRange src.toNat 8 = false then raised .rangeError s
  else if inRange dst.toNat 8 = false then raised .rangeError s
  else completed (window d src.toNat dst.toNat s)

/-- The buffer command in direction `d` (R162, R163), its checks in the order of R209. -/
def manyBlocks (d : Direction) (src slen dst dlen : Word) (s : State) : Result :=
  if s.ready = false then raised .engineNotInitialized s
  else if slen.toNat % 8 ≠ 0 then raised .bufferTooShort s
  else if dlen.toNat < slen.toNat then raised .bufferTooShort s
  else if inRange src.toNat slen.toNat = false then raised .rangeError s
  else if inRange dst.toNat slen.toNat = false then raised .rangeError s
  else completed (windows d (slen.toNat / 8) src.toNat dst.toNat s)

/-- ENCB (R160). -/
def execEncb (src slen dst dlen : Word) (s : State) : Result := singleBlock .encrypt src slen dst dlen s

/-- DECB (R161). -/
def execDecb (src slen dst dlen : Word) (s : State) : Result := singleBlock .decrypt src slen dst dlen s

/-- ENCN (R162). -/
def execEncn (src slen dst dlen : Word) (s : State) : Result := manyBlocks .encrypt src slen dst dlen s

/-- DECN (R163). -/
def execDecn (src slen dst dlen : Word) (s : State) : Result := manyBlocks .decrypt src slen dst dlen s

end Sys2Proof.Machine
end

