-- ==== Sys2Proof/Machine/KeySchedule.lean ====
section
/-! DEFINITION. The key schedule and the INIT command (spec/40_key_schedule.md R100 to R105). -/

namespace Sys2Proof.Machine

/-- `KeyDerive(K)` (R100). -/
def keyDerive (k : Vector Byte 32) : WorkingKey :=
  Vector.ofFn fun i : Fin 8 => le32 k[4 * i.val] k[4 * i.val + 1] k[4 * i.val + 2] k[4 * i.val + 3]

/-- INIT once every check has passed: it reads the key, then writes WK, SBOX and READY (R61, R102, R103). -/
def initialise (kaddr : Word) (table : SBox) (s : State) : Option State :=
  match memRead s kaddr.toNat 32 with
  | some k => some (s.loadKey (keyDerive k) table)
  | none => none

/-- INIT (R102), its checks in the order of R209. -/
def execInit (sel : Nibble) (kaddr klen : Word) (s : State) : Result :=
  if klen.toNat ≠ Config.keyBytes then raised .invalidKeyLength s
  else if h : sel.toNat < 8 then
    if inRange kaddr.toNat Config.keyBytes then completed (initialise kaddr s.rom[sel.toNat] s)
    else raised .rangeError s
  else raised .unknownSBox s

end Sys2Proof.Machine
end

