-- ==== Sys2Proof/Machine/Dispatch.lean ====
section
/-! DEFINITION. One arm per command, each a direct call of its meaning (spec/30_encoding.md R72). -/

namespace Sys2Proof.Machine

def exec (i : Instr) (s : State) : Host.Outcome State Fault Refusal :=
  match i with
  | .init sel kaddr klen => Sys2Proof.Machine.execInit sel kaddr klen s
  | .encb src slen dst dlen => Sys2Proof.Machine.execEncb src slen dst dlen s
  | .decb src slen dst dlen => Sys2Proof.Machine.execDecb src slen dst dlen s
  | .encn src slen dst dlen => Sys2Proof.Machine.execEncn src slen dst dlen s
  | .decn src slen dst dlen => Sys2Proof.Machine.execDecn src slen dst dlen s

end Sys2Proof.Machine
end

