-- ==== Sys2Proof/Machine/HostPort.lean ====
section
/-! DEFINITION. What the outside does to the block (spec/00_scope.md R12): packets on the command port
(spec/30_encoding.md R70), the host's accesses to buffer memory (spec/20_memory.md R50, R62) with the hazards it must
respect (spec/70_reset_and_hazards.md R235), and reset (R230, R231). -/

namespace Sys2Proof.Machine

/-- Some region of the list holds address `a`. -/
def inRegions (rs : List Region) (a : Nat) : Bool := rs.any (fun r => inRegion r a)

/-- While BUSY, the regions the host must not write (R235); otherwise none. -/
def State.guardedWrites (s : State) : List Region :=
  match s.current with
  | some p => packetRegions p
  | none => []

/-- While BUSY, the region whose bytes the host must not rely on (R235); otherwise none. -/
def State.guardedReads (s : State) : List Region :=
  match s.current with
  | some p => packetDestination p
  | none => []

/-- The host presents a packet: accepted when the engine is idle (R70), refused while it is busy (R235, I4). -/
def presentTurn (p : Packet) (s : State) : Result :=
  if s.busy then .refused .packetWhileBusy else .next (s.accept p)

/-- The host writes one byte: refused in a region of the executing command (R235, I4). -/
def writeTurn (a : Word) (b : Byte) (s : State) : Result :=
  if inRegions s.guardedWrites a.toNat then .refused .writeWhileBusy
  else if s.admits a.toNat then .next (s.withMem (s.mem.write a.toNat b))
  else .refused .hostUnbacked

/-- The host reads one byte, which changes nothing (R58): refused in the executing command's destination (R235, I4). -/
def readTurn (a : Word) (s : State) : Result :=
  if inRegions s.guardedReads a.toNat then .refused .readWhileBusy
  else if s.admits a.toNat then .next s
  else .refused .hostUnbacked

/-- Give each backed byte of the `n` from address `a` a free value (R231, I7). -/
def scramble (s : State) : Nat → Nat → Memory → Memory
  | 0, _, m => m
  | n + 1, a, m =>
    scramble s n (a + 1) (if s.admits a then Memory.write m a (Config.freeByte s.draws a) else m)

/-- Give the bytes of each region free values (R231). -/
def scrambleRegions (s : State) : List Region → Memory → Memory
  | [], m => m
  | r :: rs, m => scrambleRegions s rs (scramble s r.size r.base m)

/-- Reset (R230, R37): READY and STATUS are cleared, SBOX is the copy of SBOX_ROM[0], WK, N1, N2 and ROUND hold any
value. A command it abandons leaves any value in its destination region, and no other byte changes (R231). -/
def State.resetEngine (s : State) : State :=
  { s with
    ready := false
    wk := Config.freeKey s.draws
    sbox := s.rom[0]
    err := .ok
    halves := Config.freeHalves s.draws
    current := none
    mem := scrambleRegions s s.guardedReads s.mem
    draws := s.draws + 1 }

end Sys2Proof.Machine
end

