-- ==== Sys2Proof/Machine/Engine.lean ====
section
/-! DEFINITION. The engine's turn: it executes the accepted packet, or idles; and which agent's turn does what
(spec/00_scope.md R12, spec/30_encoding.md R81, spec/60_exceptions.md R206, R219). -/

namespace Sys2Proof.Machine

/-- The engine's turn. A legal packet runs as its command; an illegal one completes with IllegalCommand (R77, R206);
without a packet the engine idles and keeps its state (R219, R232). -/
def engineTurn (s : State) : Result :=
  match s.current with
  | none => .next s
  | some p =>
    match decode p with
    | .ok i => exec i s
    | .error _ => raised .illegalCommand s

/-- One turn of the agent it names. -/
def takeTurn (t : Turn) (s : State) : Result :=
  match t with
  | .engine => engineTurn s
  | .present p => presentTurn p s
  | .write a b => writeTurn a b s
  | .read a => readTurn a s
  | .reset => .next s.resetEngine

/-- The turns with the engine's first; it is the engine's turn anyway when none is left. -/
def engineFirst : List Turn → List Turn
  | [] => []
  | t :: ts => .engine :: t :: ts

end Sys2Proof.Machine
end

