-- ==== Sys2Proof/Machine/Step.lean ====
section
/-! DEFINITION. One step of the machine: the next turn is taken (spec/00_scope.md R12). -/

namespace Sys2Proof.Machine

/-- One step: the first turn of the list is taken; when none is left, it is the engine's turn. -/
def step (s : State) : Host.Outcome State Fault Refusal :=
  match s.turns with
  | [] => engineTurn s
  | t :: ts => takeTurn t (s.withTurns ts)

/-- The state in which the packet of these bits has been accepted and the next step is the engine's: a packet comes from
outside, on the command port, never from memory (R65, R70); log entry 8. -/
def State.withFetchWord (s : State) (nbits w : Nat) : State :=
  (s.accept (Packet.ofBits nbits w)).withTurns (engineFirst s.turns)

end Sys2Proof.Machine
end

