-- ==== Sys2Proof/Safety.lean ====
section
/-! DEFINITION. What a reachable state always satisfies, and what a good run of a host program is
(spec/60_exceptions.md R211; spec/10_state.md R21, R25; spec/20_memory.md R50, R51). -/

namespace Sys2Proof.Machine

/-- Every listed byte of memory has an address that exists and is backed (R50, R51). -/
def State.memBacked (s : State) : Bool := s.mem.all (fun c => s.admits c.1)

/-- The invariant of the machine. -/
structure State.Inv (s : State) : Prop where
  /-- Memory is in canonical form. -/
  canonical : Memory.wf s.mem = true
  /-- Memory lists only addresses that exist and are backed (R50, R51). -/
  backed : s.memBacked = true
  /-- The active table is a copy of one ROM table (R25). -/
  table : ∃ k : Fin 8, s.sbox = s.rom[k]
  /-- Before the first successful INIT it is the built-in one (R21, R37). -/
  builtIn : s.ready = false → s.sbox = s.rom[0]
  /-- An error is on record whenever STATUS.ERR shows one (R211). -/
  recorded : s.err ≠ .ok → s.firstError.isSome = true

/-- The engine's registers, the constants, the turns to come and the error record are as before: what every block command
keeps (R160 to R163). N1, N2, ROUND and the count of free values are left out: they hold any value (R28). -/
structure KeepsRegisters (s t : State) : Prop where
  ready : t.ready = s.ready
  wk : t.wk = s.wk
  sbox : t.sbox = s.sbox
  rom : t.rom = s.rom
  backed : t.backed = s.backed
  turns : t.turns = s.turns
  firstError : t.firstError = s.firstError

/-- A good state of a host program: no command has completed with an error (R211, I6). -/
def State.Good (s : State) : Prop := s.firstError = none

end Sys2Proof.Machine
end

