-- ==== Sys2Proof/Machine/Assembler.lean ====
section
/-! DEFINITION. The assembler notation of spec/30_encoding.md R83: the lines and how their text is read, the eight table
names, the pseudo-instructions and their expansions, the packet of a line, and the line a disassembler gives for a
packet. -/

namespace Sys2Proof.Assembler

/-- The names of the eight ROM tables (R26, R74). -/
inductive TableName where
  | default
  | eTest
  | eA
  | eB
  | eC
  | eD
  | dTest
  | dA
  deriving DecidableEq, Repr

/-- The select code of a table name (R74). -/
def TableName.code : TableName → Nat
  | .default => 0
  | .eTest => 1
  | .eA => 2
  | .eB => 3
  | .eC => 4
  | .eD => 5
  | .dTest => 6
  | .dA => 7

/-- A `<sel>` operand: a table name, or `#n` (R83). -/
inductive Select where
  | name (t : TableName)
  | number (n : Nat)
  deriving DecidableEq, Repr

/-- The select code a `<sel>` operand stands for (R83). -/
def Select.code : Select → Nat
  | .name t => t.code
  | .number n => n

/-- One line of assembler: the five commands, the five pseudo-instructions and the raw packet (R83). -/
inductive Line where
  | init (sel : Select) (kaddr klen : Nat)
  | encb (src slen dst dlen : Nat)
  | decb (src slen dst dlen : Nat)
  | encn (src slen dst dlen : Nat)
  | decn (src slen dst dlen : Nat)
  | initk (sel : Select) (kaddr : Nat)
  | enc1 (src dst : Nat)
  | dec1 (src dst : Nat)
  | enci (addr len : Nat)
  | deci (addr len : Nat)
  | packet (w0 w1 w2 w3 w4 : Nat)
  deriving DecidableEq, Repr

/-- The expansion of a pseudo-instruction; any other line stands for itself (R83). -/
def expand : Line → Line
  | .initk sel kaddr => .init sel kaddr 32
  | .enc1 src dst => .encb src 8 dst 8
  | .dec1 src dst => .decb src 8 dst 8
  | .enci addr len => .encn addr len addr len
  | .deci addr len => .decn addr len addr len
  | l => l

/-- The five words of a line that is no pseudo-instruction; a pseudo-instruction has none of its own (R83). -/
def emit : Line → Option Packet
  | .init sel kaddr klen => some ⟨BitVec.ofNat 32 (sel.code <<< 4 ||| 0x1), BitVec.ofNat 32 kaddr, BitVec.ofNat 32 klen, 0, 0⟩
  | .encb src slen dst dlen => some ⟨0x2, BitVec.ofNat 32 src, BitVec.ofNat 32 slen, BitVec.ofNat 32 dst, BitVec.ofNat 32 dlen⟩
  | .decb src slen dst dlen => some ⟨0x3, BitVec.ofNat 32 src, BitVec.ofNat 32 slen, BitVec.ofNat 32 dst, BitVec.ofNat 32 dlen⟩
  | .encn src slen dst dlen => some ⟨0x4, BitVec.ofNat 32 src, BitVec.ofNat 32 slen, BitVec.ofNat 32 dst, BitVec.ofNat 32 dlen⟩
  | .decn src slen dst dlen => some ⟨0x5, BitVec.ofNat 32 src, BitVec.ofNat 32 slen, BitVec.ofNat 32 dst, BitVec.ofNat 32 dlen⟩
  | .packet w0 w1 w2 w3 w4 =>
      some ⟨BitVec.ofNat 32 w0, BitVec.ofNat 32 w1, BitVec.ofNat 32 w2, BitVec.ofNat 32 w3, BitVec.ofNat 32 w4⟩
  | .initk .. => none
  | .enc1 .. => none
  | .dec1 .. => none
  | .enci .. => none
  | .deci .. => none

/-- The packet an assembler emits for a line (R83). -/
def assemble (l : Line) : Option Packet := emit (expand l)

/-- The line a disassembler gives for a packet: `.packet` for an illegal one (R83). R83 does not say how it shows a legal
one. DESIGN CHOICE: as its command's line, never a pseudo-instruction; INIT's `<sel>` as `#n`, never a name; and the
operand words INIT ignores (R80) are not shown, so one that is nonzero is lost (log entry 17). -/
def disassemble (p : Packet) : Line :=
  match decode p with
  | .ok (.init sel kaddr klen) => .init (.number sel.toNat) kaddr.toNat klen.toNat
  | .ok (.encb src slen dst dlen) => .encb src.toNat slen.toNat dst.toNat dlen.toNat
  | .ok (.decb src slen dst dlen) => .decb src.toNat slen.toNat dst.toNat dlen.toNat
  | .ok (.encn src slen dst dlen) => .encn src.toNat slen.toNat dst.toNat dlen.toNat
  | .ok (.decn src slen dst dlen) => .decn src.toNat slen.toNat dst.toNat dlen.toNat
  | .error _ => .packet p.w0.toNat p.w1.toNat p.w2.toNat p.w3.toNat p.w4.toNat

/-- The value of one digit of a number in base 10 or 16. -/
def digitValue (base : Nat) (c : Char) : Option Nat :=
  let v :=
    if '0' ≤ c ∧ c ≤ '9' then c.toNat - '0'.toNat
    else if 'a' ≤ c ∧ c ≤ 'f' then c.toNat - 'a'.toNat + 10
    else if 'A' ≤ c ∧ c ≤ 'F' then c.toNat - 'A'.toNat + 10
    else base
  if v < base then some v else none

/-- The value of digits read after a value already read. -/
def digitsFrom (base : Nat) : Nat → List Char → Option Nat
  | acc, [] => some acc
  | acc, c :: cs =>
    match digitValue base c with
    | some v => digitsFrom base (acc * base + v) cs
    | none => none

/-- A number: decimal, or hexadecimal with a `0x` prefix (R83). -/
def numberOf : List Char → Option Nat
  | [] => none
  | '0' :: 'x' :: c :: cs => digitsFrom 16 0 (c :: cs)
  | c :: cs => digitsFrom 10 0 (c :: cs)

/-- A table name, without regard to case (R83). -/
def tableNameOf (cs : List Char) : Option TableName :=
  let text := String.ofList (cs.map Char.toUpper)
  if text = "DEFAULT" then some .default
  else if text = "E-TEST" then some .eTest
  else if text = "E-A" then some .eA
  else if text = "E-B" then some .eB
  else if text = "E-C" then some .eC
  else if text = "E-D" then some .eD
  else if text = "D-TEST" then some .dTest
  else if text = "D-A" then some .dA
  else none

/-- A `<sel>` operand: `#n`, or a table name (R83). -/
def selectOf : List Char → Option Select
  | '#' :: cs => (numberOf cs).map .number
  | cs => (tableNameOf cs).map .name

/-- The pieces of a text between the commas. -/
def splitCommas : List Char → List (List Char)
  | [] => [[]]
  | ',' :: cs => [] :: splitCommas cs
  | c :: cs =>
    match splitCommas cs with
    | piece :: pieces => (c :: piece) :: pieces
    | [] => [[c]]

/-- A text without the spaces around it. -/
def trimSpaces (cs : List Char) : List Char :=
  ((cs.dropWhile (· == ' ')).reverse.dropWhile (· == ' ')).reverse

/-- The line of a mnemonic with the operands given (R83). -/
def lineOf (mnemonic : String) (operands : List (List Char)) : Option Line :=
  match operands with
  | [x, y] => do
    if mnemonic = "INITK" then return .initk (← selectOf x) (← numberOf y)
    else
      let mk ←
        if mnemonic = "ENC1" then some Line.enc1
        else if mnemonic = "DEC1" then some Line.dec1
        else if mnemonic = "ENCI" then some Line.enci
        else if mnemonic = "DECI" then some Line.deci
        else none
      return mk (← numberOf x) (← numberOf y)
  | [x, y, z] => do
    if mnemonic = "INIT" then return .init (← selectOf x) (← numberOf y) (← numberOf z) else none
  | [x, y, z, w] => do
    let mk ←
      if mnemonic = "ENCB" then some Line.encb
      else if mnemonic = "DECB" then some Line.decb
      else if mnemonic = "ENCN" then some Line.encn
      else if mnemonic = "DECN" then some Line.decn
      else none
    return mk (← numberOf x) (← numberOf y) (← numberOf z) (← numberOf w)
  | [x, y, z, w, v] => do
    if mnemonic = ".packet" then
      return .packet (← numberOf x) (← numberOf y) (← numberOf z) (← numberOf w) (← numberOf v)
    else none
  | _ => none

/-- The line a text stands for: a mnemonic, a space, and operands with commas between them (R83). -/
def parse (text : List Char) : Option Line :=
  let line := trimSpaces text
  lineOf (String.ofList (line.takeWhile (· != ' '))) ((splitCommas (line.dropWhile (· != ' '))).map trimSpaces)

end Sys2Proof.Assembler
end

