-- ==== Sys2Proof/WellFormed.lean ====
section
/-! DEFINITION. Which packets are legal (spec/30_encoding.md R77), which assembler lines are well formed (R83), and
which commands are. The operands of `Instr` are words of exactly the widths the packet gives them, so no command is ill
formed: `Instr.wf` says that its packet is legal, which Laws/PerInstr.lean proves for each. -/

namespace Sys2Proof

/-- OP names one of the five commands (R72, R77). -/
def Packet.opcodeDefined (p : Packet) : Bool := decide (1 ≤ p.op.toNat) && decide (p.op.toNat ≤ 5)

/-- RSV is zero (R76, R77). -/
def Packet.reservedZero (p : Packet) : Bool := decide (p.rsv = 0)

/-- SEL is zero wherever OP is 0x2 to 0x5 (R75, R77). -/
def Packet.selectAllowed (p : Packet) : Bool :=
  !(decide (2 ≤ p.op.toNat) && decide (p.op.toNat ≤ 5) && decide (p.sel ≠ 0))

/-- The packet is legal: none of the three cases of R77 applies. -/
def Packet.wf (p : Packet) : Bool := p.opcodeDefined && p.reservedZero && p.selectAllowed

/-- The command's packet is legal. -/
def Instr.wf (i : Instr) : Bool := (encode i).wf

namespace Assembler

/-- A number of an assembler line fits 32 bits (R83). -/
def fits32 (n : Nat) : Bool := decide (n < 4294967296)

/-- A `<sel>` operand is a name, or `#n` with n from 0 to 15 (R83). -/
def Select.wf : Select → Bool
  | .name _ => true
  | .number n => decide (n ≤ 15)

/-- Every number of the line fits 32 bits, and its `<sel>` is in range (R83). -/
def Line.wf : Line → Bool
  | .init sel kaddr klen => sel.wf && fits32 kaddr && fits32 klen
  | .encb src slen dst dlen => fits32 src && fits32 slen && fits32 dst && fits32 dlen
  | .decb src slen dst dlen => fits32 src && fits32 slen && fits32 dst && fits32 dlen
  | .encn src slen dst dlen => fits32 src && fits32 slen && fits32 dst && fits32 dlen
  | .decn src slen dst dlen => fits32 src && fits32 slen && fits32 dst && fits32 dlen
  | .initk sel kaddr => sel.wf && fits32 kaddr
  | .enc1 src dst => fits32 src && fits32 dst
  | .dec1 src dst => fits32 src && fits32 dst
  | .enci addr len => fits32 addr && fits32 len
  | .deci addr len => fits32 addr && fits32 len
  | .packet w0 w1 w2 w3 w4 => fits32 w0 && fits32 w1 && fits32 w2 && fits32 w3 && fits32 w4

/-- The packet of a line of text: it must parse, and be well formed (R83). -/
def assembleText (text : List Char) : Option Packet :=
  match parse text with
  | some l => if l.wf then assemble l else none
  | none => none

end Assembler

end Sys2Proof
end

