-- ==== Sys2Proof/Certificates/Slice0/Obligations.lean ====
section
/-! DEFINITION. The statements about the model, for the provers. Each docstring names the rules of spec/ it rests on. -/

open Sys2Proof Sys2Proof.Machine

/-! ## Encoding (spec/30_encoding.md) -/

/-- Words written out from R71, R72, R81 and the decoding vectors V-D1 to V-D10 decode as the spec says. -/
def Obligations.SpecWordsDecode : Prop :=
  decode ⟨0x00000011, 0x100, 0x20, 0, 0⟩ = .ok (.init 1 0x100 0x20) ∧
  decode ⟨0x00000091, 0x100, 0x20, 0, 0⟩ = .ok (.init 9 0x100 0x20) ∧
  decode ⟨0x00000002, 0x200, 8, 0x300, 16⟩ = .ok (.encb 0x200 8 0x300 16) ∧
  decode ⟨0x00000003, 0x300, 8, 0x400, 8⟩ = .ok (.decb 0x300 8 0x400 8) ∧
  decode ⟨0x00000004, 0x200, 24, 0x208, 32⟩ = .ok (.encn 0x200 24 0x208 32) ∧
  decode ⟨0x00000005, 0x400, 24, 0x400, 24⟩ = .ok (.decn 0x400 24 0x400 24) ∧
  (∀ w ∈ ([0x00000000, 0x00000006, 0x0000000F, 0x00000012, 0x00000102, 0x80000001] : List Word),
    ∃ why, decode ⟨w, 0, 0, 0, 0⟩ = .error why)

/-- Decode and encode agree in both directions (R72, R78, R79, R81, R83): decoding an encoded command gives it back,
with every operand at every value; and a legal packet is the encoding of what it decodes to, but for the two operand
words INIT ignores. -/
def Obligations.DecodeAndEncodeAgree : Prop :=
  (∀ i : Instr, decode (encode i) = .ok i) ∧
  (∀ (p : Packet) (i : Instr), decode p = .ok i →
    (encode i).w0 = p.w0 ∧ (encode i).w1 = p.w1 ∧ (encode i).w2 = p.w2 ∧
    ((∀ sel kaddr klen, i ≠ .init sel kaddr klen) → (encode i).w3 = p.w3 ∧ (encode i).w4 = p.w4))

/-- R77 and R206: which packets are illegal, field by field of the command word, and that the engine completes an illegal
one with IllegalCommand and changes nothing else (its own error record apart, log entry 9). -/
def Obligations.IllegalPacketsRaiseIllegalCommand : Prop :=
  ∀ (p : Packet) (s : State), s.current = some p →
    ((∃ why, decode p = .error why) ↔
      (p.w0.toNat % 16 = 0 ∨ 6 ≤ p.w0.toNat % 16) ∨
      p.w0.toNat / 256 ≠ 0 ∨
      (2 ≤ p.w0.toNat % 16 ∧ p.w0.toNat % 16 ≤ 5 ∧ p.w0.toNat / 16 % 16 ≠ 0)) ∧
    ((∃ why, decode p = .error why) →
      (s.turns = [] → step s = .next { s with
        current := none, err := .illegalCommand, firstError := some (s.firstError.getD .illegalCommand) }) ∧
      (∀ ts, s.turns = .engine :: ts → step s = .next { s with
        turns := ts, current := none, err := .illegalCommand,
        firstError := some (s.firstError.getD .illegalCommand) }))

/-- R80: the operand words INIT does not use may hold any value, and that value has no effect, at any opcode word that
decodes to INIT; an assembler writes 0 there. -/
def Obligations.UnusedInitWordsHaveNoEffect : Prop :=
  (∀ (w0 w1 w2 a b c d : Word) sel kaddr klen,
    decode ⟨w0, w1, w2, a, b⟩ = .ok (.init sel kaddr klen) → decode ⟨w0, w1, w2, c, d⟩ = .ok (.init sel kaddr klen)) ∧
  (∀ sel kaddr klen, ∃ p, Assembler.assemble (.init sel kaddr klen) = some p ∧ p.w3 = 0 ∧ p.w4 = 0)

/-- R83, from the parsed line on: every well-formed line assembles; a command line's packet decodes to that command;
each pseudo-instruction assembles as its expansion. -/
def Obligations.AssemblerLinesMeanTheirCommands : Prop :=
  (∀ l : Assembler.Line, l.wf = true → ∃ p, Assembler.assemble l = some p) ∧
  (∀ (sel : Assembler.Select) (a k : Nat), (Assembler.Line.init sel a k).wf = true → ∃ p,
    Assembler.assemble (.init sel a k) = some p ∧
    ∃ sel' kaddr klen, decode p = .ok (.init sel' kaddr klen) ∧
      sel'.toNat = sel.code ∧ kaddr.toNat = a ∧ klen.toNat = k) ∧
  (∀ a b c d : Nat, (Assembler.Line.encb a b c d).wf = true → ∀ line mk,
    (line, mk) ∈ [(Assembler.Line.encb, Instr.encb), (.decb, .decb), (.encn, .encn), (.decn, .decn)] → ∃ p,
    Assembler.assemble (line a b c d) = some p ∧
    ∃ src slen dst dlen, decode p = .ok (mk src slen dst dlen) ∧
      src.toNat = a ∧ slen.toNat = b ∧ dst.toNat = c ∧ dlen.toNat = d) ∧
  (∀ sel a, Assembler.assemble (.initk sel a) = Assembler.assemble (.init sel a 32)) ∧
  (∀ a c, Assembler.assemble (.enc1 a c) = Assembler.assemble (.encb a 8 c 8)) ∧
  (∀ a c, Assembler.assemble (.dec1 a c) = Assembler.assemble (.decb a 8 c 8)) ∧
  (∀ a n, Assembler.assemble (.enci a n) = Assembler.assemble (.encn a n a n)) ∧
  (∀ a n, Assembler.assemble (.deci a n) = Assembler.assemble (.decn a n a n))

/-- R81 and R83: disassembling a packet and assembling the line again gives a packet with the same meaning, and an
illegal packet unchanged. How the disassembler shows a legal packet is the model's choice (log entry 17). -/
def Obligations.DisassemblyReassembles : Prop :=
  ∀ p : Packet, ∃ q, Assembler.assemble (Assembler.disassemble p) = some q ∧ decode q = decode p ∧
    ((∃ why, decode p = .error why) → q = p)

/-! ## Key schedule, round function, Feistel engine (spec/40_key_schedule.md, 41, 42) -/

/-- R53, R100: each word of the key schedule is four key bytes, the first least significant; and the key can be read
back from the words, so every key byte counts. -/
def Obligations.KeyScheduleIsLittleEndian : Prop :=
  (∀ (k : Vector Byte 32) (i : Nat) (h : i < 8),
    (keyDerive k)[i].toNat =
      k[4 * i].toNat + 256 * k[4 * i + 1].toNat + 65536 * k[4 * i + 2].toNat + 16777216 * k[4 * i + 3].toNat) ∧
  (∀ k k' : Vector Byte 32, keyDerive k = keyDerive k' → k = k')

/-- R54, R140, R145: the halves of a block are its bytes little-endian, low half first, in both directions. -/
def Obligations.BlockHalvesAreLittleEndian : Prop :=
  (∀ b : Block,
    (unpack b).n1.toNat = b[0].toNat + 256 * b[1].toNat + 65536 * b[2].toNat + 16777216 * b[3].toNat ∧
    (unpack b).n2.toNat = b[4].toNat + 256 * b[5].toNat + 65536 * b[6].toNat + 16777216 * b[7].toNat) ∧
  (∀ (h : Halves) (i : Nat) (hi : i < 8),
    (pack h)[i].toNat = (if i < 4 then h.n1.toNat / 256 ^ i else h.n2.toNat / 256 ^ (i - 4)) % 256)

/-- R120, R123: the round function adds modulo 2^32, substitutes, then rotates; with the identity table it gives the
spec's example. -/
def Obligations.RoundFunctionSteps : Prop :=
  (∀ n1 subkey : Word, (modAdd n1 subkey).toNat = (subkey.toNat + n1.toNat) % 4294967296) ∧
  (∀ (t : SBox) (n1 subkey : Word), roundF t n1 subkey = rotl32 (subst t (modAdd n1 subkey)) 11) ∧
  roundF (Vector.ofFn fun j => BitVec.ofNat 4 j.val) 0x12345678 0x87654321 = 0xCCCCCCCC

/-- R121: nibble `i` of the substituted word is entry `16*i + x` of the table, where `x` is nibble `i` of the word: the
eight lanes do not interact, for any table. -/
def Obligations.SubstitutionWorksLaneByLane : Prop :=
  ∀ (t : SBox) (cm : Word) (i : Nat) (hi : i < 8),
    (subst t cm).extractLsb' (4 * i) 4 =
      t[16 * i + (cm.extractLsb' (4 * i) 4).toNat]'(by have := (cm.extractLsb' (4 * i) 4).isLt; omega)

/-- R122: the rotation moves bit `j` to bit `(j + 11) mod 32`; it is `(om << 11) | (om >> 21)`; and the corner cases. -/
def Obligations.RotationMovesEveryBit : Prop :=
  (∀ (om : Word) (j : Nat), j < 32 → (rotl32 om 11).getLsbD ((j + 11) % 32) = om.getLsbD j) ∧
  (∀ om : Word, rotl32 om 11 = om <<< 11 ||| om >>> 21) ∧
  rotl32 0x00000001 11 = 0x00000800 ∧ rotl32 0x80000000 11 = 0x00000400 ∧
  rotl32 0x00200000 11 = 0x00000001 ∧ rotl32 0xFFE00000 11 = 0x000007FF

/-- R142, R143: the two key orders, and that each with the final round's index 0 is the other reversed. -/
def Obligations.KeyOrdersAreReverses : Prop :=
  keyOrder .encrypt = [0, 1, 2, 3, 4, 5, 6, 7, 0, 1, 2, 3, 4, 5, 6, 7, 0, 1, 2, 3, 4, 5, 6, 7, 7, 6, 5, 4, 3, 2, 1] ∧
  keyOrder .decrypt = [0, 1, 2, 3, 4, 5, 6, 7, 7, 6, 5, 4, 3, 2, 1, 0, 7, 6, 5, 4, 3, 2, 1, 0, 7, 6, 5, 4, 3, 2, 1] ∧
  keyOrder .decrypt ++ [0] = (keyOrder .encrypt ++ [0]).reverse

/-- R148: decryption inverts encryption and encryption inverts decryption, for every table, key and block. -/
def Obligations.DecryptionInvertsEncryption : Prop :=
  ∀ (t : SBox) (wk : WorkingKey) (b : Block),
    cryptBlock t wk .decrypt (cryptBlock t wk .encrypt b) = b ∧
    cryptBlock t wk .encrypt (cryptBlock t wk .decrypt b) = b

/-- R146's corner cases: with an all-zero table a transform exchanges the halves whatever the key, and with eight equal
sub-keys encryption and decryption are the same function. -/
def Obligations.DegenerateTablesAndKeys : Prop :=
  (∀ (wk : WorkingKey) (d : Direction) (b : Block),
    cryptBlock (Vector.replicate 128 0) wk d b = #v[b[4], b[5], b[6], b[7], b[0], b[1], b[2], b[3]]) ∧
  (∀ (t : SBox) (k : Word) (b : Block),
    cryptBlock t (Vector.replicate 8 k) .encrypt b = cryptBlock t (Vector.replicate 8 k) .decrypt b)

/-! ## Buffer memory and STATUS (spec/20_memory.md, 10_state.md) -/

/-- R51: a completed write gives its bytes back to a read of the same region, leaves every other byte alone and keeps
the memory's canonical form; and it completes exactly when every byte it touches is backed. -/
def Obligations.MemoryWriteThenRead : Prop :=
  ∀ (s : State) (a n : Nat) (v : Vector Byte n), Memory.wf s.mem = true →
    ((∃ t, memWrite s a n v = some t) ↔ ∀ i < n, s.admits (a + i) = true) ∧
    (∀ t, memWrite s a n v = some t →
      memRead t a n = some v ∧ Memory.wf t.mem = true ∧
      ∀ x, (x < a ∨ a + n ≤ x) → t.mem.read x = s.mem.read x)

/-- R30, R33 and the codes of R201: every bit of STATUS. -/
def Obligations.StatusFields : Prop :=
  (∀ s : State,
    (s.status.getLsbD 0 = s.current.isSome) ∧ (s.status.getLsbD 1 = s.ready) ∧
    s.status.extractLsb' 2 2 = 0 ∧ s.status.extractLsb' 4 4 = s.err.code ∧ s.status.extractLsb' 8 24 = 0) ∧
  State.reset.status = 0 ∧
  ErrCode.ok.code = 0 ∧ ErrCode.invalidKeyLength.code = 1 ∧ ErrCode.unknownSBox.code = 2 ∧
  ErrCode.engineNotInitialized.code = 3 ∧ ErrCode.bufferTooShort.code = 4 ∧ ErrCode.illegalCommand.code = 5 ∧
  ErrCode.rangeError.code = 6

/-! ## INIT (spec/40_key_schedule.md) -/

/-- R102, R103, R104: INIT of a 32-byte key in a backed region in range, with a select code from 0 to 7, completes: it
writes WK whole from the key bytes, SBOX whole from the selected ROM table, READY and ERR, ends BUSY, and changes nothing
else. That SEL 0 makes the built-in table active, whatever table was, is the reading R103 marks as the spec's own choice
(D10). -/
def Obligations.InitLoadsKeyAndTable : Prop :=
  ∀ (s : State) (sel : Nibble) (kaddr : Word) (h : sel.toNat < 8), kaddr.toNat + 32 ≤ 4294967296 →
    (∀ i < 32, s.admits (kaddr.toNat + i) = true) →
    exec (.init sel kaddr 32) s = .next { s with
      ready := true
      wk := keyDerive (Vector.ofFn fun i : Fin 32 => s.mem.read (kaddr.toNat + i.val))
      sbox := s.rom[sel.toNat]
      err := .ok
      current := none }

/-- R102 with R100 and R105: when none of R102's three checks fails and every key byte is backed, INIT completes, on an
engine with a key as on one without: READY reads 1 and ERR and BUSY 0; each sub-key is four key bytes as memory holds
them, the first least significant, so nothing of an earlier key survives; each S-box entry is the selected ROM table's;
and nothing else changes. -/
def Obligations.InitCompletesWhenItsChecksPass : Prop :=
  ∀ (s : State) (sel : Nibble) (kaddr klen : Word) (h : sel.toNat < 8),
    klen.toNat = 32 → kaddr.toNat + 32 ≤ 4294967296 → (∀ i < 32, s.admits (kaddr.toNat + i) = true) →
    let key (i : Nat) : Nat := (s.mem.read (kaddr.toNat + i)).toNat
    ∃ t, exec (.init sel kaddr klen) s = .next t ∧ t.status = 0x00000002 ∧
      (∀ (i : Nat) (hi : i < 8), t.wk[i].toNat =
        key (4 * i) + 256 * key (4 * i + 1) + 65536 * key (4 * i + 2) + 16777216 * key (4 * i + 3)) ∧
      (∀ (j : Nat) (hj : j < 128), t.sbox[j] = s.rom[sel.toNat][j]) ∧
      t = { s with ready := true, wk := t.wk, sbox := t.sbox, err := .ok, current := none }

/-- R202, R203, R207, R209, R210: INIT's errors, the first that applies reported, and nothing changed but STATUS (and
the model's error record, log entry 9). -/
def Obligations.InitErrorsInOrder : Prop :=
  ∀ (s : State) (sel : Nibble) (kaddr klen : Word),
    let fails (e : ErrCode) := exec (.init sel kaddr klen) s =
      .next { s with current := none, err := e, firstError := some (s.firstError.getD e) }
    (klen.toNat ≠ 32 → fails .invalidKeyLength) ∧
    (klen.toNat = 32 → 8 ≤ sel.toNat → fails .unknownSBox) ∧
    (klen.toNat = 32 → sel.toNat < 8 → 4294967296 < kaddr.toNat + 32 → fails .rangeError)

/-! ## Block commands (spec/43_block_codec.md) -/

/-- R160, R161: ENCB and DECB of an initialised engine, with 8 bytes or more on each side and both windows in range and
backed, complete with ERR 0: the 8 bytes at DST become EncryptBlock, or DecryptBlock, of the 8 bytes at SRC; every other
byte of memory and every register stays. -/
def Obligations.SingleBlockCommandsTransformOneBlock : Prop :=
  ∀ (s : State) (src slen dst dlen : Word), Memory.wf s.mem = true → s.ready = true →
    8 ≤ slen.toNat → 8 ≤ dlen.toNat → src.toNat + 8 ≤ 4294967296 → dst.toNat + 8 ≤ 4294967296 →
    (∀ i < 8, s.admits (src.toNat + i) = true ∧ s.admits (dst.toNat + i) = true) →
    ∀ one d, (one, d) ∈ [(Instr.encb, Direction.encrypt), (Instr.decb, Direction.decrypt)] →
      ∃ t, exec (one src slen dst dlen) s = .next t ∧ t.err = .ok ∧ t.current = none ∧ KeepsRegisters s t ∧
        t.mem.bytes dst.toNat 8 = cryptBlock s.sbox s.wk d (s.mem.bytes src.toNat 8) ∧
        ∀ a, (a < dst.toNat ∨ dst.toNat + 8 ≤ a) → t.mem.read a = s.mem.read a

/-- R162, R163: ENCN and DECN of an initialised engine, with a source length that is a multiple of 8 and fits the
destination, both regions in range and backed, complete with ERR 0; every register stays, and so does every byte outside
[DST, DST+SLEN), all of memory when SLEN is 0. -/
def Obligations.BufferCommandsComplete : Prop :=
  ∀ (s : State) (src slen dst dlen : Word), Memory.wf s.mem = true → s.ready = true →
    slen.toNat % 8 = 0 → slen.toNat ≤ dlen.toNat →
    src.toNat + slen.toNat ≤ 4294967296 → dst.toNat + slen.toNat ≤ 4294967296 →
    (∀ i < slen.toNat, s.admits (src.toNat + i) = true ∧ s.admits (dst.toNat + i) = true) →
    ∀ i ∈ [Instr.encn src slen dst dlen, Instr.decn src slen dst dlen],
      ∃ t, exec i s = .next t ∧ t.err = .ok ∧ t.current = none ∧ KeepsRegisters s t ∧
        ∀ a, (a < dst.toNat ∨ dst.toNat + slen.toNat ≤ a) → t.mem.read a = s.mem.read a

/-- R164, R165, R166: when a buffer command succeeds and its regions are disjoint or equal, or the destination starts at
or below the source, every window of the destination is the transform of the source's original window: no chaining. -/
def Obligations.EcbTransformsEveryOriginalWindow : Prop :=
  ∀ (s t : State) (src slen dst dlen : Word), Memory.wf s.mem = true →
    ∀ many d, (many, d) ∈ [(Instr.encn, Direction.encrypt), (Instr.decn, Direction.decrypt)] →
    exec (many src slen dst dlen) s = .next t → t.err = .ok →
    (dst.toNat ≤ src.toNat ∨ src.toNat + slen.toNat ≤ dst.toNat) →
    ∀ k < slen.toNat / 8,
      t.mem.bytes (dst.toNat + 8 * k) 8 = cryptBlock s.sbox s.wk d (s.mem.bytes (src.toNat + 8 * k) 8)

/-- R61, R165: with DST = SRC + 8, window 0 is the transform of the source's first window and each later window is the
transform of the window before it, as the sequential order has it. -/
def Obligations.OverlapByOneWindowChains : Prop :=
  ∀ (s t : State) (src slen dst dlen : Word), Memory.wf s.mem = true →
    ∀ many d, (many, d) ∈ [(Instr.encn, Direction.encrypt), (Instr.decn, Direction.decrypt)] →
    exec (many src slen dst dlen) s = .next t → t.err = .ok →
    dst.toNat = src.toNat + 8 → 8 ≤ slen.toNat →
    t.mem.bytes dst.toNat 8 = cryptBlock s.sbox s.wk d (s.mem.bytes src.toNat 8) ∧
    ∀ k, k + 1 < slen.toNat / 8 →
      t.mem.bytes (dst.toNat + 8 * (k + 1)) 8 = cryptBlock s.sbox s.wk d (t.mem.bytes (dst.toNat + 8 * k) 8)

/-- R61, R162, R163: a buffer command past its checks is the single-block command on its first window, then the buffer
command on the rest, whatever the regions and however they overlap, also where it gets stuck. -/
def Obligations.BufferCommandUnrollsIntoWindows : Prop :=
  ∀ (s : State) (src slen dst dlen : Word), s.ready = true → slen.toNat % 8 = 0 → 8 ≤ slen.toNat →
    slen.toNat ≤ dlen.toNat → src.toNat + slen.toNat ≤ 4294967296 → dst.toNat + slen.toNat ≤ 4294967296 →
    ∀ one many, (one, many) ∈ [(Instr.encb, Instr.encn), (Instr.decb, Instr.decn)] →
      exec (many src slen dst dlen) s =
        match exec (one src 8 dst 8) s with
        | .next u => exec (many (src + 8) (slen - 8) (dst + 8) (dlen - 8)) u
        | stopped => stopped

/-- R204, R205, R207, R209, R210: the errors of the four block commands, the first that applies reported, and nothing
changed but STATUS (and the model's error record, log entry 9). -/
def Obligations.BlockErrorsInOrder : Prop :=
  ∀ (s : State) (src slen dst dlen : Word),
    let fails (i : Instr) (e : ErrCode) := exec i s =
      .next { s with current := none, err := e, firstError := some (s.firstError.getD e) }
    (∀ i ∈ [Instr.encb src slen dst dlen, .decb src slen dst dlen],
      (s.ready = false → fails i .engineNotInitialized) ∧
      (s.ready = true → slen.toNat < 8 ∨ dlen.toNat < 8 → fails i .bufferTooShort) ∧
      (s.ready = true → 8 ≤ slen.toNat → 8 ≤ dlen.toNat →
        4294967296 < src.toNat + 8 ∨ 4294967296 < dst.toNat + 8 → fails i .rangeError)) ∧
    (∀ i ∈ [Instr.encn src slen dst dlen, .decn src slen dst dlen],
      (s.ready = false → fails i .engineNotInitialized) ∧
      (s.ready = true → slen.toNat % 8 ≠ 0 ∨ dlen.toNat < slen.toNat → fails i .bufferTooShort) ∧
      (s.ready = true → slen.toNat % 8 = 0 → slen.toNat ≤ dlen.toNat →
        4294967296 < src.toNat + slen.toNat ∨ 4294967296 < dst.toNat + slen.toNat → fails i .rangeError))

/-- R161 with R148: encrypting a block in place and decrypting it in place gives back the same memory, and so does
decrypting it and then encrypting it. -/
def Obligations.OneBlockInPlaceRoundTrip : Prop :=
  ∀ (s u : State) (x : Word), Memory.wf s.mem = true →
    ∀ one two, (one, two) ∈ [(Instr.encb, Instr.decb), (Instr.decb, Instr.encb)] →
      exec (one x 8 x 8) s = .next u → u.err = .ok →
      ∃ t, exec (two x 8 x 8) u = .next t ∧ t.err = .ok ∧ t.mem = s.mem

/-- R163 with R148 and R166: ENCN into a disjoint or equal region, then DECN of that region in place, with no INIT
between, leaves the source's original bytes there, and every byte outside it as it was; and so does DECN, then ENCN. -/
def Obligations.BufferRoundTripRestores : Prop :=
  ∀ (s u : State) (src slen dst dlen : Word), Memory.wf s.mem = true →
    ∀ one two, (one, two) ∈ [(Instr.encn, Instr.decn), (Instr.decn, Instr.encn)] →
    exec (one src slen dst dlen) s = .next u → u.err = .ok →
    (src = dst ∨ src.toNat + slen.toNat ≤ dst.toNat ∨ dst.toNat + slen.toNat ≤ src.toNat) →
    ∃ t, exec (two dst slen dst slen) u = .next t ∧ t.err = .ok ∧
      (∀ i < slen.toNat, t.mem.read (dst.toNat + i) = s.mem.read (src.toNat + i)) ∧
      ∀ a, (a < dst.toNat ∨ dst.toNat + slen.toNat ≤ a) → t.mem.read a = s.mem.read a

/-! ## All commands (spec/60_exceptions.md) -/

/-- R210: whatever the command, if it completes with an error it has changed STATUS alone (and the model's error record,
log entry 9): READY, WK, SBOX, the constants and buffer memory are as they were. -/
def Obligations.ErrorsChangeStatusAlone : Prop :=
  ∀ (i : Instr) (s t : State), exec i s = .next t → t.err ≠ .ok →
    t = { s with current := none, err := t.err, firstError := some (s.firstError.getD t.err) }

/-- R31: ERR does not accumulate: whatever code an earlier command left, a command has the same outcome, and BUSY reads 0
once it completes (R32). -/
def Obligations.EveryCommandOverwritesErr : Prop :=
  (∀ (i : Instr) (s : State) (e : ErrCode), exec i { s with err := e } = exec i s) ∧
  (∀ (i : Instr) (s t : State), exec i s = .next t → t.current = none ∧ t.status.getLsbD 0 = false)

/-- R51, R208: a command has no next state exactly when its checks pass and some byte it must access is not backed; then
the engine is stuck. -/
def Obligations.StuckExactlyAtUnbackedBytes : Prop :=
  ∀ s : State,
    (∀ (sel : Nibble) (kaddr klen : Word), exec (.init sel kaddr klen) s = .fault .stuckUnbacked ↔
      klen.toNat = 32 ∧ sel.toNat < 8 ∧ kaddr.toNat + 32 ≤ 4294967296 ∧ ∃ i < 32, s.admits (kaddr.toNat + i) = false) ∧
    (∀ (src slen dst dlen : Word), ∀ i ∈ [Instr.encb src slen dst dlen, .decb src slen dst dlen],
      exec i s = .fault .stuckUnbacked ↔
        s.ready = true ∧ 8 ≤ slen.toNat ∧ 8 ≤ dlen.toNat ∧ src.toNat + 8 ≤ 4294967296 ∧ dst.toNat + 8 ≤ 4294967296 ∧
        ∃ j < 8, s.admits (src.toNat + j) = false ∨ s.admits (dst.toNat + j) = false) ∧
    (∀ (src slen dst dlen : Word), ∀ i ∈ [Instr.encn src slen dst dlen, .decn src slen dst dlen],
      exec i s = .fault .stuckUnbacked ↔
        s.ready = true ∧ slen.toNat % 8 = 0 ∧ slen.toNat ≤ dlen.toNat ∧
        src.toNat + slen.toNat ≤ 4294967296 ∧ dst.toNat + slen.toNat ≤ 4294967296 ∧
        ∃ j < slen.toNat, s.admits (src.toNat + j) = false ∨ s.admits (dst.toNat + j) = false) ∧
    (∀ (i : Instr) (r : Refusal), exec i s ≠ .refused r)

/-- R28, R149: no command reads what N1, N2 and ROUND held before it; two states that differ there alone have outcomes
that differ there alone, or are both stuck. -/
def Obligations.NoCommandReadsOldHalves : Prop :=
  ∀ (i : Instr) (s : State) (h : Halves),
    (∀ t, exec i s = .next t →
      ∃ h', exec i { s with halves := h } = .next { t with halves := h' }) ∧
    (exec i s = .fault .stuckUnbacked → exec i { s with halves := h } = .fault .stuckUnbacked)

/-- R208, R239: which error a command reports, and whether it completes, depends on READY, the platform and the operands
alone, on no key, table or data: STATUS leaks none of them. -/
def Obligations.StatusIndependentOfKeyTableAndData : Prop :=
  ∀ (i : Instr) (s s' : State), s.ready = s'.ready → s.backed = s'.backed →
    (∀ t, exec i s = .next t → ∃ t', exec i s' = .next t' ∧ t'.status = t.status) ∧
    (exec i s = .fault .stuckUnbacked → exec i s' = .fault .stuckUnbacked)

/-! ## The machine: steps, reset, the host (spec/70_reset_and_hazards.md, 00_scope.md R12) -/

/-- R12, R81: when it is the engine's turn and the accepted packet decodes, the step is the decoded command at that state
(its own turn taken off the list); and the same for a packet placed by `withFetchWord`. -/
def Obligations.StepRunsTheDecodedCommand : Prop :=
  (∀ (s : State) (p : Packet) (i : Instr), s.current = some p → decode p = .ok i →
    (s.turns = [] → step s = exec i s) ∧
    (∀ ts, s.turns = .engine :: ts → step s = exec i { s with turns := ts })) ∧
  (∀ (s : State) (nbits w : Nat) (i : Instr), decodeTableWord nbits w = some i →
    step (s.withFetchWord nbits w) = exec i { s with current := some (Packet.ofBits nbits w) })

/-- R219, R232: without a packet the engine waits and keeps all its state. -/
def Obligations.IdleEngineKeepsItsState : Prop :=
  ∀ s : State, s.current = none →
    (s.turns = [] → step s = .next s) ∧ (∀ ts, s.turns = .engine :: ts → step s = .next { s with turns := ts })

/-- R30, R32, R62, R70: with no command executing, the host presents a packet, which raises BUSY and changes nothing
else; writes a backed byte, which a read then gives back, and changes no other; and reads, which changes nothing. -/
def Obligations.HostActsBetweenCommands : Prop :=
  ∀ (s : State) (ts : List Turn), s.current = none →
    (∀ p, s.turns = .present p :: ts →
      step s = .next { s with turns := ts, current := some p } ∧
      { s with turns := ts, current := some p }.status.getLsbD 0 = true) ∧
    (∀ a b, s.turns = .write a b :: ts → Memory.wf s.mem = true → s.admits a.toNat = true →
      ∃ m, step s = .next { s with turns := ts, mem := m } ∧
        ∀ x, Memory.read m x = if x = a.toNat then b else s.mem.read x) ∧
    (∀ a, s.turns = .read a :: ts → s.admits a.toNat = true → step s = .next { s with turns := ts })

/-- R235: while a command executes, a new packet, a write to one of its regions and a read of its destination have no
meaning: the model refuses each. -/
def Obligations.HostHazardsAreRefused : Prop :=
  ∀ (s : State) (ts : List Turn) (p : Packet), s.current = some p →
    (∀ q, s.turns = .present q :: ts → step s = .refused .packetWhileBusy) ∧
    (∀ sel kaddr klen, decode p = .ok (.init sel kaddr klen) → ∀ (a : Word) b, s.turns = .write a b :: ts →
      kaddr.toNat ≤ a.toNat → a.toNat < kaddr.toNat + 32 → step s = .refused .writeWhileBusy) ∧
    (∀ src slen dst dlen,
      (∃ i ∈ [Instr.encb src slen dst dlen, .decb src slen dst dlen, .encn src slen dst dlen, .decn src slen dst dlen],
        decode p = .ok i) →
      (∀ (a : Word) b, s.turns = .write a b :: ts →
        (src.toNat ≤ a.toNat ∧ a.toNat < src.toNat + slen.toNat) ∨
        (dst.toNat ≤ a.toNat ∧ a.toNat < dst.toNat + dlen.toNat) → step s = .refused .writeWhileBusy) ∧
      (∀ a : Word, s.turns = .read a :: ts →
        dst.toNat ≤ a.toNat → a.toNat < dst.toNat + dlen.toNat → step s = .refused .readWhileBusy))

/-- R37, R230: what reset leaves: READY 0, SBOX the copy of SBOX_ROM[0], STATUS 0, the ROM as it was and, with no command
abandoned, buffer memory as it was; WK, N1, N2 and ROUND are unspecified, and nothing is said of them. -/
def Obligations.ResetLeavesTheSpecifiedValues : Prop :=
  (∀ (s : State) (ts : List Turn), s.turns = .reset :: ts →
    ∃ t, step s = .next t ∧ t.ready = false ∧ t.sbox = s.rom[0] ∧ t.status = 0 ∧ t.rom = s.rom ∧
      t.backed = s.backed ∧ t.turns = ts ∧ (s.current = none → t.mem = s.mem)) ∧
  State.reset.ready = false ∧ State.reset.sbox = State.reset.rom[0] ∧ State.reset.status = 0

/-- R231, with the destination region (DST, DLEN) of R235 (log entry 6): a reset that abandons a command leaves every byte
outside the destination region of a block command as it was, and all of memory for INIT and for an illegal packet. -/
def Obligations.AbandonedCommandDamagesItsDestinationAlone : Prop :=
  ∀ (s : State) (ts : List Turn) (p : Packet), Memory.wf s.mem = true → s.turns = .reset :: ts → s.current = some p →
    ∃ t, step s = .next t ∧ t.current = none ∧ t.ready = false ∧
      (∀ why, decode p = .error why → t.mem = s.mem) ∧
      (∀ sel kaddr klen, decode p = .ok (.init sel kaddr klen) → t.mem = s.mem) ∧
      (∀ src slen dst dlen,
        (∃ i ∈ [Instr.encb src slen dst dlen, .decb src slen dst dlen, .encn src slen dst dlen, .decn src slen dst dlen],
          decode p = .ok i) →
        ∀ a, (a < dst.toNat ∨ dst.toNat + dlen.toNat ≤ a) → t.mem.read a = s.mem.read a)

/-- R21, R23, R25, whole-machine: READY, WK and SBOX change in two ways only: a reset, or an INIT that completes without
an error. The table is then a copy of the ROM table the rules name. -/
def Obligations.KeyAndTableChangeOnlyByInitOrReset : Prop :=
  ∀ s t : State, step s = .next t → (t.ready ≠ s.ready ∨ t.wk ≠ s.wk ∨ t.sbox ≠ s.sbox) →
    (s.turns.head? = some .reset ∧ t.ready = false ∧ t.sbox = s.rom[0]) ∨
    ((s.turns = [] ∨ s.turns.head? = some .engine) ∧ t.ready = true ∧ t.err = .ok ∧
      ∃ p sel kaddr klen, s.current = some p ∧ decode p = .ok (.init sel kaddr klen) ∧
        ∃ h : sel.toNat < 8, t.sbox = s.rom[sel.toNat])

/-- R27, R51, R59, R211: no step changes the ROM or the platform map, and none clears the model's record of an error
(log entry 9). -/
def Obligations.ConstantsAndErrorRecordStay : Prop :=
  ∀ s t : State, step s = .next t →
    t.rom = s.rom ∧ t.backed = s.backed ∧ (∀ e, s.firstError = some e → t.firstError = some e)

/-- R50, R57, whole-machine: buffer memory changes only where the spec lets it: at the byte the host writes; in the
destination of the block command the engine executes, or that a reset abandons (R231). That an abandoned command's
destination region is (DST, DLEN), the region R235 names, is the model's reading (log entry 6, DEDUCED): R231 gives no
length. -/
def Obligations.MemoryChangesOnlyInDestinations : Prop :=
  ∀ (s t : State) (a : Nat), Memory.wf s.mem = true → step s = .next t → t.mem.read a ≠ s.mem.read a →
    (∃ w b, s.turns.head? = some (.write w b) ∧ a = w.toNat) ∨
    (∃ p src slen dst dlen, s.current = some p ∧
      (∃ i ∈ [Instr.encb src slen dst dlen, .decb src slen dst dlen, .encn src slen dst dlen, .decn src slen dst dlen],
        decode p = .ok i) ∧
      dst.toNat ≤ a ∧ a < dst.toNat + dlen.toNat)

/-- The invariant (Safety.lean: canonical memory that lists backed addresses alone, R50, R51; an active table that is a
ROM table, R25, and the built-in one until the first INIT, R21; an error on record whenever ERR shows one, R211) is kept
by every step. -/
def Obligations.StepKeepsTheInvariant : Prop := ∀ s t : State, s.Inv → step s = .next t → t.Inv

/-- The invariant holds of the state after reset. -/
def Obligations.ResetStateMeetsTheInvariant : Prop := State.reset.Inv
end

