-- ==== Sys2Proof/Laws/Memory.lean ====
section
/-! SUPPORT. Buffer memory: what a read gives after a write, and that every operation keeps the canonical form. -/

namespace Sys2Proof.Machine

namespace Memory

@[simp] theorem read_nil (a : Nat) : read [] a = unlistedByte := rfl

theorem read_cons (c : Host.Cell) (m : Memory) (a : Nat) : read (c :: m) a = if a = c.1 then c.2 else read m a := rfl

/-- The canonical form of a cell in front of other cells. -/
theorem wf_cons (c : Host.Cell) (m : Memory) :
    wf (c :: m) = true ↔ c.2 ≠ unlistedByte ∧ (∀ d ∈ m, c.1 < d.1) ∧ wf m = true := by
  simp [wf, and_assoc]

/-- An address below every listed one is unlisted. -/
theorem read_below {m : Memory} {a : Nat} (h : ∀ d ∈ m, a < d.1) : read m a = unlistedByte := by
  induction m with
  | nil => rfl
  | cons c m ih =>
    have hc := h c (List.mem_cons_self ..)
    rw [read_cons, if_neg (by omega), ih fun d hd => h d (List.mem_cons_of_mem _ hd)]

theorem read_put {m : Memory} {a : Nat} (b : Byte) (h : ∀ d ∈ m, a < d.1) (x : Nat) :
    read (put a b m) x = if x = a then b else read m x := by
  unfold put
  split
  · rename_i hb
    split
    · subst x; rw [read_below h, hb]
    · rfl
  · rfl

theorem mem_put {m : Memory} {a : Nat} {b : Byte} {d : Host.Cell} (h : d ∈ put a b m) : d = (a, b) ∨ d ∈ m := by
  unfold put at h
  split at h
  · exact .inr h
  · simpa using h

theorem wf_put {m : Memory} {a : Nat} {b : Byte} (h : ∀ d ∈ m, a < d.1) (hm : wf m = true) : wf (put a b m) = true := by
  unfold put
  split
  · exact hm
  · exact (wf_cons _ _).2 ⟨by assumption, h, hm⟩

/-- A cell of the memory after a write is the written one or was there before. -/
theorem mem_write {m : Memory} {a : Nat} {b : Byte} {d : Host.Cell} (h : d ∈ write m a b) : d = (a, b) ∨ d ∈ m := by
  induction m with
  | nil => exact mem_put h
  | cons c m ih =>
    unfold write at h
    split at h
    · exact mem_put h
    · split at h
      · exact (mem_put h).imp_right (List.mem_cons_of_mem _)
      · rcases List.mem_cons.1 h with rfl | h
        · exact .inr (List.mem_cons_self ..)
        · exact (ih h).imp_right (List.mem_cons_of_mem _)

/-- A write keeps the canonical form. -/
theorem wf_write {m : Memory} (a : Nat) (b : Byte) (hm : wf m = true) : wf (write m a b) = true := by
  induction m with
  | nil => exact wf_put (by simp) hm
  | cons c m ih =>
    obtain ⟨hc, hlt, hw⟩ := (wf_cons c m).1 hm
    unfold write
    split
    · exact wf_put (by rintro d hd; rcases List.mem_cons.1 hd with rfl | hd <;> first | assumption | have := hlt d hd; omega) hm
    · split
      · exact wf_put (fun d hd => by have := hlt d hd; omega) hw
      · refine (wf_cons _ _).2 ⟨hc, fun d hd => ?_, ih hw⟩
        rcases mem_write hd with rfl | hd
        · show c.1 < a; omega
        · exact hlt d hd

/-- A read gives the byte last written there, and every other byte is as before. -/
theorem read_write {m : Memory} (a : Nat) (b : Byte) (hm : wf m = true) (x : Nat) :
    read (write m a b) x = if x = a then b else read m x := by
  induction m with
  | nil => exact read_put b (by simp) x
  | cons c m ih =>
    obtain ⟨-, hlt, hw⟩ := (wf_cons c m).1 hm
    unfold write
    split
    · exact read_put b (by rintro d hd; rcases List.mem_cons.1 hd with rfl | hd <;> first | assumption | have := hlt d hd; omega) x
    · split
      · rename_i ha
        rw [read_put b (fun d hd => by have := hlt d hd; omega), read_cons]
        split <;> simp_all
      · rw [read_cons, read_cons, ih hw]
        split <;> split <;> simp_all

theorem wf_writeList {m : Memory} (a : Nat) (bs : List Byte) (hm : wf m = true) : wf (writeList m a bs) = true := by
  induction bs generalizing m a with
  | nil => exact hm
  | cons b bs ih => exact ih _ (wf_write a b hm)

theorem mem_writeList {m : Memory} {a : Nat} {bs : List Byte} {d : Host.Cell} (h : d ∈ writeList m a bs) :
    (a ≤ d.1 ∧ d.1 < a + bs.length) ∨ d ∈ m := by
  induction bs generalizing m a with
  | nil => exact .inr h
  | cons b bs ih =>
    rcases ih h with h | h
    · exact .inl (by simp; omega)
    · rcases mem_write h with rfl | h
      · exact .inl (by simp)
      · exact .inr h

/-- A read after writing a list of bytes: the bytes where they were written, the old byte elsewhere. -/
theorem read_writeList {m : Memory} (a : Nat) (bs : List Byte) (hm : wf m = true) (x : Nat) :
    read (writeList m a bs) x = if h : a ≤ x ∧ x - a < bs.length then bs[x - a]'h.2 else read m x := by
  induction bs generalizing m a with
  | nil => simp [writeList]
  | cons b bs ih =>
    rw [writeList, ih _ (wf_write a b hm)]
    rcases Nat.lt_trichotomy x a with hx | rfl | hx
    · rw [dif_neg (by omega), dif_neg (by omega), read_write a b hm, if_neg (by omega)]
    · simp [read_write x b hm]
    · obtain ⟨k, rfl⟩ : ∃ k, x = a + 1 + k := ⟨x - (a + 1), by omega⟩
      have e : a + 1 + k - a = k + 1 := by omega
      by_cases hk : k < bs.length
      · rw [dif_pos (by constructor <;> omega), dif_pos ⟨by omega, by simp; omega⟩]
        simp [e]
      · rw [dif_neg (by omega), dif_neg (by simp; omega), read_write a b hm, if_neg (by omega)]

theorem writeList_outside {m : Memory} (a : Nat) (bs : List Byte) (hm : wf m = true) {x : Nat}
    (hx : x < a ∨ a + bs.length ≤ x) : read (writeList m a bs) x = read m x := by
  rw [read_writeList a bs hm, dif_neg (by omega)]

/-- Two canonical memories that read alike everywhere are the same data. -/
theorem ext_of_read {m m' : Memory} (hm : wf m = true) (hm' : wf m' = true) (h : ∀ a, read m a = read m' a) : m = m' := by
  induction m generalizing m' with
  | nil =>
    cases m' with
    | nil => rfl
    | cons c m' =>
      have := h c.1
      rw [read_cons, if_pos rfl] at this
      exact absurd this.symm ((wf_cons _ _).1 hm').1
  | cons c m ih =>
    obtain ⟨hc, hlt, hw⟩ := (wf_cons _ _).1 hm
    cases m' with
    | nil =>
      have := h c.1
      rw [read_cons, if_pos rfl] at this
      exact absurd this hc
    | cons c' m' =>
      obtain ⟨hc', hlt', hw'⟩ := (wf_cons _ _).1 hm'
      have below {a : Nat} (ha : a < c'.1) : read (c' :: m') a = unlistedByte :=
        read_below fun d hd => by rcases List.mem_cons.1 hd with rfl | hd <;> first | assumption | have := hlt' d hd; omega
      have below' {a : Nat} (ha : a < c.1) : read (c :: m) a = unlistedByte :=
        read_below fun d hd => by rcases List.mem_cons.1 hd with rfl | hd <;> first | assumption | have := hlt d hd; omega
      have key : c.1 = c'.1 := by
        rcases Nat.lt_trichotomy c.1 c'.1 with hl | he | hl
        · have := h c.1; rw [below hl, read_cons, if_pos rfl] at this; exact absurd this hc
        · exact he
        · have := h c'.1; rw [below' hl, read_cons, if_pos rfl] at this; exact absurd this.symm hc'
      have val : c.2 = c'.2 := by
        have := h c.1; rwa [read_cons, if_pos rfl, read_cons, if_pos key] at this
      have tail : ∀ a, read m a = read m' a := fun a => by
        by_cases ha : a = c.1
        · rw [ha, read_below hlt, read_below (by rw [key]; exact hlt')]
        · have := h a; rwa [read_cons, if_neg ha, read_cons, if_neg (key ▸ ha)] at this
      rw [ih hw hw' tail, Prod.ext key val]

end Memory

end Sys2Proof.Machine
end

