-- ==== Sys2Proof/Laws/State.lean ====
section
/-! SUPPORT. One lemma per field per update of the state, so that no later proof unfolds a record update. -/

namespace Sys2Proof.Machine.State

variable (s : State)

@[simp] theorem withMem_ready (m : Memory) : (s.withMem m).ready = s.ready := rfl
@[simp] theorem withMem_wk (m : Memory) : (s.withMem m).wk = s.wk := rfl
@[simp] theorem withMem_sbox (m : Memory) : (s.withMem m).sbox = s.sbox := rfl
@[simp] theorem withMem_err (m : Memory) : (s.withMem m).err = s.err := rfl
@[simp] theorem withMem_halves (m : Memory) : (s.withMem m).halves = s.halves := rfl
@[simp] theorem withMem_rom (m : Memory) : (s.withMem m).rom = s.rom := rfl
@[simp] theorem withMem_current (m : Memory) : (s.withMem m).current = s.current := rfl
@[simp] theorem withMem_mem (m : Memory) : (s.withMem m).mem = m := rfl
@[simp] theorem withMem_backed (m : Memory) : (s.withMem m).backed = s.backed := rfl
@[simp] theorem withMem_turns (m : Memory) : (s.withMem m).turns = s.turns := rfl
@[simp] theorem withMem_draws (m : Memory) : (s.withMem m).draws = s.draws := rfl
@[simp] theorem withMem_firstError (m : Memory) : (s.withMem m).firstError = s.firstError := rfl

@[simp] theorem finish_ready : (s.finish).ready = s.ready := rfl
@[simp] theorem finish_wk : (s.finish).wk = s.wk := rfl
@[simp] theorem finish_sbox : (s.finish).sbox = s.sbox := rfl
@[simp] theorem finish_err : (s.finish).err = .ok := rfl
@[simp] theorem finish_halves : (s.finish).halves = s.halves := rfl
@[simp] theorem finish_rom : (s.finish).rom = s.rom := rfl
@[simp] theorem finish_current : (s.finish).current = none := rfl
@[simp] theorem finish_mem : (s.finish).mem = s.mem := rfl
@[simp] theorem finish_backed : (s.finish).backed = s.backed := rfl
@[simp] theorem finish_turns : (s.finish).turns = s.turns := rfl
@[simp] theorem finish_draws : (s.finish).draws = s.draws := rfl
@[simp] theorem finish_firstError : (s.finish).firstError = s.firstError := rfl

@[simp] theorem raise_ready (e : ErrCode) : (s.raise e).ready = s.ready := rfl
@[simp] theorem raise_wk (e : ErrCode) : (s.raise e).wk = s.wk := rfl
@[simp] theorem raise_sbox (e : ErrCode) : (s.raise e).sbox = s.sbox := rfl
@[simp] theorem raise_err (e : ErrCode) : (s.raise e).err = e := rfl
@[simp] theorem raise_halves (e : ErrCode) : (s.raise e).halves = s.halves := rfl
@[simp] theorem raise_rom (e : ErrCode) : (s.raise e).rom = s.rom := rfl
@[simp] theorem raise_current (e : ErrCode) : (s.raise e).current = none := rfl
@[simp] theorem raise_mem (e : ErrCode) : (s.raise e).mem = s.mem := rfl
@[simp] theorem raise_backed (e : ErrCode) : (s.raise e).backed = s.backed := rfl
@[simp] theorem raise_turns (e : ErrCode) : (s.raise e).turns = s.turns := rfl
@[simp] theorem raise_draws (e : ErrCode) : (s.raise e).draws = s.draws := rfl
@[simp] theorem raise_firstError (e : ErrCode) : (s.raise e).firstError = some (s.firstError.getD e) := rfl

@[simp] theorem loadKey_ready (k : WorkingKey) (t : SBox) : (s.loadKey k t).ready = true := rfl
@[simp] theorem loadKey_wk (k : WorkingKey) (t : SBox) : (s.loadKey k t).wk = k := rfl
@[simp] theorem loadKey_sbox (k : WorkingKey) (t : SBox) : (s.loadKey k t).sbox = t := rfl
@[simp] theorem loadKey_err (k : WorkingKey) (t : SBox) : (s.loadKey k t).err = s.err := rfl
@[simp] theorem loadKey_halves (k : WorkingKey) (t : SBox) : (s.loadKey k t).halves = s.halves := rfl
@[simp] theorem loadKey_rom (k : WorkingKey) (t : SBox) : (s.loadKey k t).rom = s.rom := rfl
@[simp] theorem loadKey_current (k : WorkingKey) (t : SBox) : (s.loadKey k t).current = s.current := rfl
@[simp] theorem loadKey_mem (k : WorkingKey) (t : SBox) : (s.loadKey k t).mem = s.mem := rfl
@[simp] theorem loadKey_backed (k : WorkingKey) (t : SBox) : (s.loadKey k t).backed = s.backed := rfl
@[simp] theorem loadKey_turns (k : WorkingKey) (t : SBox) : (s.loadKey k t).turns = s.turns := rfl
@[simp] theorem loadKey_draws (k : WorkingKey) (t : SBox) : (s.loadKey k t).draws = s.draws := rfl
@[simp] theorem loadKey_firstError (k : WorkingKey) (t : SBox) : (s.loadKey k t).firstError = s.firstError := rfl

@[simp] theorem setHalves_ready (h : Halves) : (s.setHalves h).ready = s.ready := rfl
@[simp] theorem setHalves_wk (h : Halves) : (s.setHalves h).wk = s.wk := rfl
@[simp] theorem setHalves_sbox (h : Halves) : (s.setHalves h).sbox = s.sbox := rfl
@[simp] theorem setHalves_err (h : Halves) : (s.setHalves h).err = s.err := rfl
@[simp] theorem setHalves_halves (h : Halves) : (s.setHalves h).halves = h := rfl
@[simp] theorem setHalves_rom (h : Halves) : (s.setHalves h).rom = s.rom := rfl
@[simp] theorem setHalves_current (h : Halves) : (s.setHalves h).current = s.current := rfl
@[simp] theorem setHalves_mem (h : Halves) : (s.setHalves h).mem = s.mem := rfl
@[simp] theorem setHalves_backed (h : Halves) : (s.setHalves h).backed = s.backed := rfl
@[simp] theorem setHalves_turns (h : Halves) : (s.setHalves h).turns = s.turns := rfl
@[simp] theorem setHalves_draws (h : Halves) : (s.setHalves h).draws = s.draws := rfl
@[simp] theorem setHalves_firstError (h : Halves) : (s.setHalves h).firstError = s.firstError := rfl

@[simp] theorem releaseHalves_ready : (s.releaseHalves).ready = s.ready := rfl
@[simp] theorem releaseHalves_wk : (s.releaseHalves).wk = s.wk := rfl
@[simp] theorem releaseHalves_sbox : (s.releaseHalves).sbox = s.sbox := rfl
@[simp] theorem releaseHalves_err : (s.releaseHalves).err = s.err := rfl
@[simp] theorem releaseHalves_halves : (s.releaseHalves).halves = Config.freeHalves s.draws := rfl
@[simp] theorem releaseHalves_rom : (s.releaseHalves).rom = s.rom := rfl
@[simp] theorem releaseHalves_current : (s.releaseHalves).current = s.current := rfl
@[simp] theorem releaseHalves_mem : (s.releaseHalves).mem = s.mem := rfl
@[simp] theorem releaseHalves_backed : (s.releaseHalves).backed = s.backed := rfl
@[simp] theorem releaseHalves_turns : (s.releaseHalves).turns = s.turns := rfl
@[simp] theorem releaseHalves_draws : (s.releaseHalves).draws = s.draws + 1 := rfl
@[simp] theorem releaseHalves_firstError : (s.releaseHalves).firstError = s.firstError := rfl

@[simp] theorem accept_ready (p : Packet) : (s.accept p).ready = s.ready := rfl
@[simp] theorem accept_wk (p : Packet) : (s.accept p).wk = s.wk := rfl
@[simp] theorem accept_sbox (p : Packet) : (s.accept p).sbox = s.sbox := rfl
@[simp] theorem accept_err (p : Packet) : (s.accept p).err = s.err := rfl
@[simp] theorem accept_halves (p : Packet) : (s.accept p).halves = s.halves := rfl
@[simp] theorem accept_rom (p : Packet) : (s.accept p).rom = s.rom := rfl
@[simp] theorem accept_current (p : Packet) : (s.accept p).current = some p := rfl
@[simp] theorem accept_mem (p : Packet) : (s.accept p).mem = s.mem := rfl
@[simp] theorem accept_backed (p : Packet) : (s.accept p).backed = s.backed := rfl
@[simp] theorem accept_turns (p : Packet) : (s.accept p).turns = s.turns := rfl
@[simp] theorem accept_draws (p : Packet) : (s.accept p).draws = s.draws := rfl
@[simp] theorem accept_firstError (p : Packet) : (s.accept p).firstError = s.firstError := rfl

@[simp] theorem withTurns_ready (ts : List Turn) : (s.withTurns ts).ready = s.ready := rfl
@[simp] theorem withTurns_wk (ts : List Turn) : (s.withTurns ts).wk = s.wk := rfl
@[simp] theorem withTurns_sbox (ts : List Turn) : (s.withTurns ts).sbox = s.sbox := rfl
@[simp] theorem withTurns_err (ts : List Turn) : (s.withTurns ts).err = s.err := rfl
@[simp] theorem withTurns_halves (ts : List Turn) : (s.withTurns ts).halves = s.halves := rfl
@[simp] theorem withTurns_rom (ts : List Turn) : (s.withTurns ts).rom = s.rom := rfl
@[simp] theorem withTurns_current (ts : List Turn) : (s.withTurns ts).current = s.current := rfl
@[simp] theorem withTurns_mem (ts : List Turn) : (s.withTurns ts).mem = s.mem := rfl
@[simp] theorem withTurns_backed (ts : List Turn) : (s.withTurns ts).backed = s.backed := rfl
@[simp] theorem withTurns_turns (ts : List Turn) : (s.withTurns ts).turns = ts := rfl
@[simp] theorem withTurns_draws (ts : List Turn) : (s.withTurns ts).draws = s.draws := rfl
@[simp] theorem withTurns_firstError (ts : List Turn) : (s.withTurns ts).firstError = s.firstError := rfl

@[simp] theorem resetEngine_ready : (s.resetEngine).ready = false := rfl
@[simp] theorem resetEngine_wk : (s.resetEngine).wk = Config.freeKey s.draws := rfl
@[simp] theorem resetEngine_sbox : (s.resetEngine).sbox = s.rom[0] := rfl
@[simp] theorem resetEngine_err : (s.resetEngine).err = .ok := rfl
@[simp] theorem resetEngine_halves : (s.resetEngine).halves = Config.freeHalves s.draws := rfl
@[simp] theorem resetEngine_rom : (s.resetEngine).rom = s.rom := rfl
@[simp] theorem resetEngine_current : (s.resetEngine).current = none := rfl
@[simp] theorem resetEngine_mem : (s.resetEngine).mem = scrambleRegions s s.guardedReads s.mem := rfl
@[simp] theorem resetEngine_backed : (s.resetEngine).backed = s.backed := rfl
@[simp] theorem resetEngine_turns : (s.resetEngine).turns = s.turns := rfl
@[simp] theorem resetEngine_draws : (s.resetEngine).draws = s.draws + 1 := rfl
@[simp] theorem resetEngine_firstError : (s.resetEngine).firstError = s.firstError := rfl

/-- Overwriting the halves twice is overwriting them once. -/
@[simp] theorem setHalves_setHalves (h h' : Halves) : (s.setHalves h).setHalves h' = s.setHalves h' := rfl

/-- Releasing the halves forgets what they held. -/
@[simp] theorem setHalves_releaseHalves (h : Halves) : (s.setHalves h).releaseHalves = s.releaseHalves := rfl

@[simp] theorem withMem_withMem (m m' : Memory) : (s.withMem m).withMem m' = s.withMem m' := rfl
@[simp] theorem finish_finish : s.finish.finish = s.finish := rfl
@[simp] theorem withMem_finish (m : Memory) : (s.withMem m).finish = s.finish.withMem m := rfl
@[simp] theorem releaseHalves_finish : s.releaseHalves.finish = s.finish.releaseHalves := rfl
@[simp] theorem withMem_releaseHalves (m : Memory) : (s.withMem m).releaseHalves = s.releaseHalves.withMem m := rfl
@[simp] theorem withTurns_withTurns (ts us : List Turn) : (s.withTurns ts).withTurns us = s.withTurns us := rfl

end Sys2Proof.Machine.State
end

