-- ==== Sys2Proof/Laws/Ops.lean ====
section
/-! SUPPORT. The shared operations: when an access is backed, what `memRead` and `memWrite` answer, and how a command
ends. -/

namespace Sys2Proof.Machine

@[simp] theorem raised_eq (e : ErrCode) (s : State) : raised e s = .next (s.raise e) := rfl
@[simp] theorem completed_some (s : State) : completed (some s) = .next s.finish := rfl
@[simp] theorem completed_none : completed none = .fault .stuckUnbacked := rfl

theorem completed_eq_next {o : Option State} {t : State} : completed o = .next t ↔ ∃ u, o = some u ∧ t = u.finish := by
  cases o <;> simp [completed, eq_comm]

/-- The range of a region (R52), in numbers. -/
theorem inRange_iff {a n : Nat} : inRange a n = true ↔ a + n ≤ 4294967296 := decide_eq_true_iff

theorem inRange_eq_false {a n : Nat} : inRange a n = false ↔ 4294967296 < a + n := by
  rw [← Bool.not_eq_true, inRange_iff, Nat.not_le]

/-- A stretch of addresses is backed when each of them is. -/
theorem admitsAll_iff {s : State} {a n : Nat} : s.admitsAll a n = true ↔ ∀ i < n, s.admits (a + i) = true := by
  simp [State.admitsAll]

/-- Whether an address is backed depends on the platform map alone. -/
theorem admits_congr {s t : State} (h : t.backed = s.backed) (a : Nat) : t.admits a = s.admits a := by
  simp [State.admits, h]

theorem admitsAll_congr {s t : State} (h : t.backed = s.backed) (a n : Nat) : t.admitsAll a n = s.admitsAll a n := by
  simp only [State.admitsAll, admits_congr h]

@[simp] theorem bytes_getElem (m : Memory) (a n i : Nat) (h : i < n) : (m.bytes a n)[i] = m.read (a + i) := by
  simp [Memory.bytes]

/-- Two stretches of memory hold the same bytes when each byte reads alike. -/
theorem bytes_congr {m m' : Memory} {a b n : Nat} (h : ∀ i < n, m.read (a + i) = m'.read (b + i)) :
    m.bytes a n = m'.bytes b n := by
  ext1 i hi
  simp [h i hi]

/-- What a backed `memRead` answers. -/
theorem memRead_of_backed {s : State} {a n : Nat} (h : s.admitsAll a n = true) :
    memRead s a n = some (s.mem.bytes a n) := if_pos h

/-- Everything `memRead` can answer. -/
theorem memRead_eq_some {s : State} {a n : Nat} {v : Vector Byte n} :
    memRead s a n = some v ↔ s.admitsAll a n = true ∧ v = s.mem.bytes a n := by
  unfold memRead
  split
  · exact ⟨fun h => ⟨by assumption, (Option.some.inj h).symm⟩, fun h => by rw [h.2]⟩
  · exact ⟨nofun, fun h => absurd h.1 (by assumption)⟩

/-- `memRead` sees the platform map and memory alone. -/
theorem memRead_congr {s t : State} (hb : t.backed = s.backed) (hm : t.mem = s.mem) (a n : Nat) :
    memRead t a n = memRead s a n := by
  simp only [memRead, admitsAll_congr hb, hm]

/-- Everything `memWrite` can answer. -/
theorem memWrite_eq_some {s t : State} {a n : Nat} {v : Vector Byte n} :
    memWrite s a n v = some t ↔ s.admitsAll a n = true ∧ t = s.withMem (s.mem.writeList a v.toList) := by
  unfold memWrite
  split
  · exact ⟨fun h => ⟨by assumption, (Option.some.inj h).symm⟩, fun h => by rw [h.2]⟩
  · exact ⟨nofun, fun h => absurd h.1 (by assumption)⟩

end Sys2Proof.Machine
end

