-- ==== Sys2Proof/Laws/Feistel.lean ====
section
/-! SUPPORT. The block transform: what the engine's transform answers and leaves, and what packing and unpacking do. -/

namespace Sys2Proof

/-- The halves without the round counter. -/
def Halves.pair (h : Halves) : Word × Word := (h.n1, h.n2)

end Sys2Proof

namespace Sys2Proof.Machine

/-- The block a transform answers is the pure function of table, sub-keys and block (R149). -/
@[simp] theorem transform_fst (d : Direction) (b : Block) (s : State) :
    (transform d b s).1 = cryptBlock s.sbox s.wk d b := rfl

/-- A transform leaves the state but for its halves, which it releases. -/
@[simp] theorem transform_snd (d : Direction) (b : Block) (s : State) : (transform d b s).2 = s.releaseHalves := rfl

/-- Packing reads the halves, not the round counter. -/
theorem pack_pair {h h' : Halves} (e : Halves.pair h = Halves.pair h') : pack h = pack h' := by
  obtain ⟨h1, h2⟩ := Prod.mk.inj e
  simp only [pack, h1, h2]

/-- Bit `j` of an assembled word is a bit of the byte it falls in (R9). -/
theorem le32_bit (b0 b1 b2 b3 : Byte) (j : Nat) :
    (le32 b0 b1 b2 b3).getLsbD j =
      if j < 8 then b0.getLsbD j else if j < 16 then b1.getLsbD (j - 8)
      else if j < 24 then b2.getLsbD (j - 16) else b3.getLsbD (j - 24) := by
  have out {b : Byte} {k : Nat} (h : 8 ≤ k) : b.getLsbD k = false := BitVec.getLsbD_of_ge _ _ h
  simp only [le32, BitVec.getLsbD_or, BitVec.getLsbD_shiftLeft, BitVec.getLsbD_setWidth]
  split
  · simp [*, show j < 16 by omega, show j < 24 by omega, show j < 32 by omega]
  · split
    · simp [*, show j < 24 by omega, show j < 32 by omega, show j - 8 < 32 by omega, out (show 8 ≤ j by omega)]
    · split
      · simp [*, show j < 32 by omega, show j - 16 < 32 by omega, out (show 8 ≤ j by omega), out (show 8 ≤ j - 8 by omega)]
      · rcases Nat.lt_or_ge j 32 with h | h
        · simp [*, show j - 24 < 32 by omega, out (show 8 ≤ j by omega), out (show 8 ≤ j - 8 by omega),
            out (show 8 ≤ j - 16 by omega)]
        · simp [show ¬ j < 32 by omega, out (show 8 ≤ j - 24 by omega)]

/-- Bit `j` of byte `i` of a word is bit `8i + j` of the word (R9). -/
theorem le32Byte_bit (w : Word) (i j : Nat) : (le32Byte w i).getLsbD j = (decide (j < 8) && w.getLsbD (8 * i + j)) := by
  simp [le32Byte]

/-- Assembling the four bytes of a word gives the word. -/
@[simp] theorem le32_le32Byte (w : Word) : le32 (le32Byte w 0) (le32Byte w 1) (le32Byte w 2) (le32Byte w 3) = w := by
  apply BitVec.eq_of_getLsbD_eq
  intro j hj
  simp only [le32_bit, le32Byte_bit]
  split
  · simp [*]
  · split
    · simp [show j - 8 < 8 by omega, show 8 + (j - 8) = j by omega]
    · split
      · simp [show j - 16 < 8 by omega, show 16 + (j - 16) = j by omega]
      · simp [show j - 24 < 8 by omega, show 24 + (j - 24) = j by omega]

/-- The bytes of an assembled word are the bytes it was assembled from. -/
theorem le32Byte_le32 (b0 b1 b2 b3 : Byte) :
    le32Byte (le32 b0 b1 b2 b3) 0 = b0 ∧ le32Byte (le32 b0 b1 b2 b3) 1 = b1 ∧
    le32Byte (le32 b0 b1 b2 b3) 2 = b2 ∧ le32Byte (le32 b0 b1 b2 b3) 3 = b3 := by
  refine ⟨?_, ?_, ?_, ?_⟩ <;> apply BitVec.eq_of_getLsbD_eq <;> intro j hj <;> simp only [le32Byte_bit, le32_bit]
  · simp [hj]
  · simp [hj, show ¬ 8 + j < 8 by omega, show 8 + j < 16 by omega]
  · simp [hj, show ¬ 16 + j < 8 by omega, show ¬ 16 + j < 16 by omega, show 16 + j < 24 by omega]
  · simp [hj, show ¬ 24 + j < 8 by omega, show ¬ 24 + j < 16 by omega, show ¬ 24 + j < 24 by omega]

/-- Unpacking a packed block gives the halves back (R54). -/
@[simp] theorem unpack_pack (h : Halves) : (unpack (pack h)).pair = h.pair := by
  simp [unpack, pack, Halves.pair]

/-- Packing an unpacked block gives the block back (R54). -/
@[simp] theorem pack_unpack (b : Block) : pack (unpack b) = b := by
  obtain ⟨e0, e1, e2, e3⟩ := le32Byte_le32 b[0] b[1] b[2] b[3]
  obtain ⟨f0, f1, f2, f3⟩ := le32Byte_le32 b[4] b[5] b[6] b[7]
  simp only [pack, unpack, e0, e1, e2, e3, f0, f1, f2, f3]
  ext i hi
  obtain rfl | rfl | rfl | rfl | rfl | rfl | rfl | rfl : i = 0 ∨ i = 1 ∨ i = 2 ∨ i = 3 ∨ i = 4 ∨ i = 5 ∨ i = 6 ∨ i = 7 := by
    omega
  all_goals rfl

end Sys2Proof.Machine
end

