-- ==== Sys2Proof/Laws/Codec.lean ====
section
/-! SUPPORT. The block codec: everything a window, a run of windows and a block command can do. -/

namespace Sys2Proof.Machine

/-- Memory after one window. -/
def windowMem (d : Direction) (src dst : Nat) (s : State) : Memory :=
  s.mem.writeList dst (cryptBlock s.sbox s.wk d (s.mem.bytes src 8)).toList

/-- Everything a window can answer. -/
theorem window_eq_some {d : Direction} {src dst : Nat} {s t : State} :
    window d src dst s = some t ↔
      s.admitsAll src 8 = true ∧ s.admitsAll dst 8 = true ∧ t = s.releaseHalves.withMem (windowMem d src dst s) := by
  unfold window
  by_cases h : s.admitsAll src 8 = true
  · rw [memRead_of_backed h]
    simp only [memWrite_eq_some, transform_fst, transform_snd, h, true_and,
      admitsAll_congr (State.releaseHalves_backed s)]
    rfl
  · have : memRead s src 8 = none := if_neg h
    simp [this, h]

/-- A byte after one window. -/
theorem read_windowMem {s : State} (hm : Memory.wf s.mem = true) (d : Direction) (src dst x : Nat) :
    (windowMem d src dst s).read x =
      if h : dst ≤ x ∧ x - dst < 8 then (cryptBlock s.sbox s.wk d (s.mem.bytes src 8))[x - dst]'h.2 else s.mem.read x := by
  unfold windowMem
  rw [Memory.read_writeList _ _ hm]
  simp

theorem wf_windowMem {s : State} (hm : Memory.wf s.mem = true) (d : Direction) (src dst : Nat) :
    Memory.wf (windowMem d src dst s) = true := Memory.wf_writeList _ _ hm

/-- Everything a run of windows can answer, one window at a time. -/
theorem windows_succ_eq_some {d : Direction} {n src dst : Nat} {s t : State} :
    windows d (n + 1) src dst s = some t ↔
      ∃ u, window d src dst s = some u ∧ windows d n (src + 8) (dst + 8) u = some t := by
  rw [windows]
  cases window d src dst s <;> simp

/-- What every run of windows keeps. -/
theorem windows_frame {d : Direction} {n src dst : Nat} {s t : State} (hm : Memory.wf s.mem = true)
    (h : windows d n src dst s = some t) :
    KeepsRegisters s t ∧ t.current = s.current ∧ t.err = s.err ∧ Memory.wf t.mem = true ∧
      ∀ x, (x < dst ∨ dst + 8 * n ≤ x) → t.mem.read x = s.mem.read x := by
  induction n generalizing src dst s with
  | zero => cases h; exact ⟨⟨rfl, rfl, rfl, rfl, rfl, rfl, rfl⟩, rfl, rfl, hm, fun _ _ => rfl⟩
  | succ n ih =>
    obtain ⟨u, hu, ht⟩ := windows_succ_eq_some.1 h
    obtain ⟨-, -, rfl⟩ := window_eq_some.1 hu
    obtain ⟨⟨k1, k2, k3, k4, k5, k6, k7⟩, kc, ke, kw, kr⟩ := ih (wf_windowMem hm d src dst) ht
    refine ⟨⟨k1, k2, k3, k4, k5, k6, k7⟩, kc, ke, kw, fun x hx => ?_⟩
    rw [kr x (by omega), State.withMem_mem, read_windowMem hm, dif_neg (by omega)]

/-- A run of windows completes when every byte it touches is backed. -/
theorem windows_complete {d : Direction} {n src dst : Nat} {s : State} (hs : s.admitsAll src (8 * n) = true)
    (hd : s.admitsAll dst (8 * n) = true) : ∃ t, windows d n src dst s = some t := by
  induction n generalizing src dst s with
  | zero => exact ⟨s, rfl⟩
  | succ n ih =>
    rw [admitsAll_iff] at hs hd
    have step {a : Nat} (h : ∀ i < 8 * (n + 1), s.admits (a + i) = true) :
        s.admitsAll a 8 = true ∧ s.admitsAll (a + 8) (8 * n) = true := by
      simp only [admitsAll_iff]
      exact ⟨fun i hi => h i (by omega), fun i hi => by rw [Nat.add_assoc]; exact h _ (by omega)⟩
    let u := s.releaseHalves.withMem (windowMem d src dst s)
    obtain ⟨t, ht⟩ := ih (s := u) (src := src + 8) (dst := dst + 8)
      ((admitsAll_congr (s := s) (t := u) rfl _ _).trans (step hs).2)
      ((admitsAll_congr (s := s) (t := u) rfl _ _).trans (step hd).2)
    exact ⟨t, windows_succ_eq_some.2 ⟨u, window_eq_some.2 ⟨(step hs).1, (step hd).1, rfl⟩, ht⟩⟩

/-- A run of windows that completes touched backed bytes only. -/
theorem windows_backed {d : Direction} {n src dst : Nat} {s t : State} (h : windows d n src dst s = some t) :
    s.admitsAll src (8 * n) = true ∧ s.admitsAll dst (8 * n) = true := by
  induction n generalizing src dst s with
  | zero => simp [State.admitsAll]
  | succ n ih =>
    obtain ⟨u, hu, ht⟩ := windows_succ_eq_some.1 h
    obtain ⟨h1, h2, rfl⟩ := window_eq_some.1 hu
    obtain ⟨i1, i2⟩ := ih ht
    have same (a m : Nat) : (s.releaseHalves.withMem (windowMem d src dst s)).admitsAll a m = s.admitsAll a m :=
      admitsAll_congr rfl a m
    rw [same] at i1 i2
    simp only [admitsAll_iff] at *
    have join {a : Nat} (p : ∀ i < 8, s.admits (a + i) = true) (q : ∀ i < 8 * n, s.admits (a + 8 + i) = true) :
        ∀ i < 8 * (n + 1), s.admits (a + i) = true := fun i hi => by
      rcases Nat.lt_or_ge i 8 with h | h
      · exact p i h
      · have := q (i - 8) (by omega); rwa [show a + 8 + (i - 8) = a + i by omega] at this
    exact ⟨join h1 i1, join h2 i2⟩

/-- Everything a single-block command can do when it answers a next state. -/
theorem singleBlock_next {d : Direction} {src slen dst dlen : Word} {s t : State}
    (h : singleBlock d src slen dst dlen s = .next t) :
    (∃ e, e ≠ .ok ∧ t = s.raise e) ∨
    (s.ready = true ∧ 8 ≤ slen.toNat ∧ 8 ≤ dlen.toNat ∧ inRange src.toNat 8 = true ∧ inRange dst.toNat 8 = true ∧
      ∃ u, window d src.toNat dst.toNat s = some u ∧ t = u.finish) := by
  unfold singleBlock at h
  split at h
  · cases h; exact .inl ⟨_, by decide, rfl⟩
  split at h
  · cases h; exact .inl ⟨_, by decide, rfl⟩
  split at h
  · cases h; exact .inl ⟨_, by decide, rfl⟩
  split at h
  · cases h; exact .inl ⟨_, by decide, rfl⟩
  split at h
  · cases h; exact .inl ⟨_, by decide, rfl⟩
  · exact .inr ⟨by simp_all, by omega, by omega, by simp_all, by simp_all, completed_eq_next.1 h⟩

/-- Everything a buffer command can do when it answers a next state. -/
theorem manyBlocks_next {d : Direction} {src slen dst dlen : Word} {s t : State}
    (h : manyBlocks d src slen dst dlen s = .next t) :
    (∃ e, e ≠ .ok ∧ t = s.raise e) ∨
    (s.ready = true ∧ slen.toNat % 8 = 0 ∧ slen.toNat ≤ dlen.toNat ∧ inRange src.toNat slen.toNat = true ∧
      inRange dst.toNat slen.toNat = true ∧
      ∃ u, windows d (slen.toNat / 8) src.toNat dst.toNat s = some u ∧ t = u.finish) := by
  unfold manyBlocks at h
  split at h
  · cases h; exact .inl ⟨_, by decide, rfl⟩
  split at h
  · cases h; exact .inl ⟨_, by decide, rfl⟩
  split at h
  · cases h; exact .inl ⟨_, by decide, rfl⟩
  split at h
  · cases h; exact .inl ⟨_, by decide, rfl⟩
  split at h
  · cases h; exact .inl ⟨_, by decide, rfl⟩
  · exact .inr ⟨by simp_all, by omega, by omega, by simp_all, by simp_all, completed_eq_next.1 h⟩

/-- Past its checks, a single-block command is one window. -/
theorem singleBlock_checked {d : Direction} {src slen dst dlen : Word} {s : State} (hr : s.ready = true)
    (h1 : 8 ≤ slen.toNat) (h2 : 8 ≤ dlen.toNat) (h3 : inRange src.toNat 8 = true) (h4 : inRange dst.toNat 8 = true) :
    singleBlock d src slen dst dlen s = completed (window d src.toNat dst.toNat s) := by
  unfold singleBlock
  rw [if_neg (by simp [hr]), if_neg (by omega), if_neg (by omega), if_neg (by simp [h3]), if_neg (by simp [h4])]

/-- Past its checks, a buffer command is its windows. -/
theorem manyBlocks_checked {d : Direction} {src slen dst dlen : Word} {s : State} (hr : s.ready = true)
    (h1 : slen.toNat % 8 = 0) (h2 : slen.toNat ≤ dlen.toNat) (h3 : inRange src.toNat slen.toNat = true)
    (h4 : inRange dst.toNat slen.toNat = true) :
    manyBlocks d src slen dst dlen s = completed (windows d (slen.toNat / 8) src.toNat dst.toNat s) := by
  unfold manyBlocks
  rw [if_neg (by simp [hr]), if_neg (by omega), if_neg (by omega), if_neg (by simp [h3]), if_neg (by simp [h4])]

end Sys2Proof.Machine
end

