-- ==== Sys2Proof/Laws/PerInstr.lean ====
section
/-! SUPPORT. What holds of each command as syntax. -/

/-! ### The packet of every command is legal (spec/30_encoding.md R77) -/

namespace Sys2Proof.Laws.EncodingLegal

/-- The command's packet is a legal one. -/
def Statement (i : Instr) : Prop := i.wf = true

theorem init (sel : Nibble) (kaddr klen : Word) : Statement (.init sel kaddr klen) := by
  have word0 : ∀ x : Nibble, (encode (.init x 0 0)).wf = true := by decide
  exact word0 sel

theorem encb (src slen dst dlen : Word) : Statement (.encb src slen dst dlen) :=
  (by decide : (encode (.encb 0 0 0 0)).wf = true)

theorem decb (src slen dst dlen : Word) : Statement (.decb src slen dst dlen) :=
  (by decide : (encode (.decb 0 0 0 0)).wf = true)

theorem encn (src slen dst dlen : Word) : Statement (.encn src slen dst dlen) :=
  (by decide : (encode (.encn 0 0 0 0)).wf = true)

theorem decn (src slen dst dlen : Word) : Statement (.decn src slen dst dlen) :=
  (by decide : (encode (.decn 0 0 0 0)).wf = true)

end Sys2Proof.Laws.EncodingLegal
end

