-- ==== Sys2Proof/Laws/Step.lean ====
section
/-! SUPPORT. Everything a command and a step can do. -/

namespace Sys2Proof.Machine

/-- Everything INIT can do when it answers a next state. -/
theorem execInit_next {sel : Nibble} {kaddr klen : Word} {s t : State} (h : execInit sel kaddr klen s = .next t) :
    (∃ e, e ≠ .ok ∧ t = s.raise e) ∨
    (klen.toNat = 32 ∧ inRange kaddr.toNat 32 = true ∧ s.admitsAll kaddr.toNat 32 = true ∧
      ∃ hs : sel.toNat < 8, t = (s.loadKey (keyDerive (s.mem.bytes kaddr.toNat 32)) s.rom[sel.toNat]).finish) := by
  unfold execInit at h
  split at h
  · cases h; exact .inl ⟨_, by decide, rfl⟩
  split at h
  · rename_i hk hs
    split at h
    · rename_i hr
      obtain ⟨u, hu, rfl⟩ := completed_eq_next.1 h
      unfold initialise at hu
      split at hu
      · rename_i k hk'
        obtain ⟨ha, rfl⟩ := memRead_eq_some.1 hk'
        cases hu
        exact .inr ⟨by simpa using hk, hr, ha, hs, rfl⟩
      · cases hu
    · cases h; exact .inl ⟨_, by decide, rfl⟩
  · cases h; exact .inl ⟨_, by decide, rfl⟩

/-- The three ways a command can reach a next state: an error, a key loaded, windows transformed. -/
inductive Completion (s t : State) : Prop where
  | error (e : ErrCode) (he : e ≠ .ok) (ht : t = s.raise e)
  | keyLoaded (wk : WorkingKey) (k : Fin 8) (ht : t = (s.loadKey wk s.rom[k]).finish)
  | transformed (d : Direction) (n src dst : Nat) (u : State) (hr : s.ready = true)
      (hu : windows d n src dst s = some u) (ht : t = u.finish)

/-- Everything a command can do when it answers a next state. -/
theorem exec_next {i : Instr} {s t : State} (h : exec i s = .next t) : Completion s t := by
  have single {d : Direction} {src slen dst dlen : Word} (h : singleBlock d src slen dst dlen s = .next t) :
      Completion s t := by
    obtain ⟨e, he, ht⟩ | ⟨hr, -, -, -, -, u, hu, ht⟩ := singleBlock_next h
    · exact .error e he ht
    · exact .transformed d 1 src.toNat dst.toNat u hr (windows_succ_eq_some.2 ⟨u, hu, rfl⟩) ht
  have many {d : Direction} {src slen dst dlen : Word} (h : manyBlocks d src slen dst dlen s = .next t) :
      Completion s t := by
    obtain ⟨e, he, ht⟩ | ⟨hr, -, -, -, -, u, hu, ht⟩ := manyBlocks_next h
    · exact .error e he ht
    · exact .transformed d _ src.toNat dst.toNat u hr hu ht
  cases i with
  | init sel kaddr klen =>
    obtain ⟨e, he, ht⟩ | ⟨-, -, -, hs, ht⟩ := execInit_next h
    · exact .error e he ht
    · exact .keyLoaded _ ⟨sel.toNat, hs⟩ ht
  | encb => exact single h
  | decb => exact single h
  | encn => exact many h
  | decn => exact many h

/-- A command has one outcome besides a next state: the engine is stuck. -/
theorem exec_not_refused (i : Instr) (s : State) : (∃ t, exec i s = .next t) ∨ exec i s = .fault .stuckUnbacked := by
  have done (o : Option State) : (∃ t, completed o = .next t) ∨ completed o = .fault .stuckUnbacked := by
    cases o <;> simp
  cases i <;> simp only [exec, execInit, execEncb, execDecb, execEncn, execDecn, singleBlock, manyBlocks] <;>
    repeat' (first | exact done _ | exact .inl ⟨_, rfl⟩ | split)

/-- It is the engine's turn. -/
def State.engineNext (s : State) : Prop := s.turns = [] ∨ s.turns.head? = some .engine

/-- The ways a step can reach a next state. -/
inductive StepCases (s t : State) : Prop where
  | idle (hh : s.engineNext) (hc : s.current = none) (ht : t = s.withTurns s.turns.tail)
  | command (p : Packet) (i : Instr) (hh : s.engineNext) (hc : s.current = some p) (hd : decode p = .ok i)
      (ht : exec i (s.withTurns s.turns.tail) = .next t)
  | illegal (p : Packet) (w : Illegal) (hh : s.engineNext) (hc : s.current = some p) (hd : decode p = .error w)
      (ht : t = (s.withTurns s.turns.tail).raise .illegalCommand)
  | accepted (p : Packet) (hh : s.turns.head? = some (.present p)) (hc : s.current = none) (ht : t = (s.withTurns s.turns.tail).accept p)
  | written (a : Word) (b : Byte) (hh : s.turns.head? = some (.write a b)) (ha : s.admits a.toNat = true)
      (hg : inRegions s.guardedWrites a.toNat = false)
      (ht : t = (s.withTurns s.turns.tail).withMem (s.mem.write a.toNat b))
  | read (a : Word) (hh : s.turns.head? = some (.read a)) (ha : s.admits a.toNat = true)
      (hg : inRegions s.guardedReads a.toNat = false) (ht : t = s.withTurns s.turns.tail)
  | reset (hh : s.turns.head? = some .reset) (ht : t = (s.withTurns s.turns.tail).resetEngine)

/-- Everything the engine's turn can do. -/
theorem engineTurn_next {s t : State} (h : engineTurn s = .next t) :
    (s.current = none ∧ t = s) ∨ (∃ p i, s.current = some p ∧ decode p = .ok i ∧ exec i s = .next t) ∨
    (∃ p w, s.current = some p ∧ decode p = .error w ∧ t = s.raise .illegalCommand) := by
  unfold engineTurn at h
  split at h
  · cases h; exact .inl ⟨by assumption, rfl⟩
  · split at h
    · exact .inr (.inl ⟨_, _, by assumption, by assumption, h⟩)
    · cases h; exact .inr (.inr ⟨_, _, by assumption, by assumption, rfl⟩)

/-- Everything a step can do when it answers a next state. -/
theorem step_next {s t : State} (h : step s = .next t) : StepCases s t := by
  have engine (hh : s.engineNext) (h : engineTurn (s.withTurns s.turns.tail) = .next t) : StepCases s t := by
    obtain ⟨hc, rfl⟩ | ⟨p, i, hc, hd, ht⟩ | ⟨p, w, hc, hd, ht⟩ := engineTurn_next h
    · exact .idle hh hc rfl
    · exact .command p i hh hc hd ht
    · exact .illegal p w hh hc hd ht
  unfold step at h
  split at h
  · rename_i hs
    refine engine (.inl hs) ?_
    rw [hs, List.tail_nil, ← hs]; exact h
  · rename_i u us hs
    have hh : s.turns.head? = some u := by rw [hs]; rfl
    have tl : us = s.turns.tail := by rw [hs]; rfl
    subst tl
    cases u with
    | engine => exact engine (.inr hh) h
    | present p =>
      simp only [takeTurn, presentTurn] at h
      split at h
      · cases h
      · rename_i hb
        cases h
        exact .accepted p hh (by simpa [State.busy] using hb) rfl
    | write a b =>
      simp only [takeTurn, writeTurn] at h
      split at h
      · cases h
      · rename_i hg
        split at h
        · rename_i ha; cases h; exact .written a b hh ha (Bool.eq_false_iff.2 hg) rfl
        · cases h
    | read a =>
      simp only [takeTurn, readTurn] at h
      split at h
      · cases h
      · rename_i hg
        split at h
        · rename_i ha; cases h; exact .read a hh ha (Bool.eq_false_iff.2 hg) rfl
        · cases h
    | reset => cases h; exact .reset hh rfl

/-- Scrambling keeps the canonical form. -/
theorem wf_scramble (s : State) (n a : Nat) {m : Memory} (hm : Memory.wf m = true) :
    Memory.wf (scramble s n a m) = true := by
  induction n generalizing a m with
  | zero => exact hm
  | succ n ih =>
    refine ih _ ?_
    split
    · exact Memory.wf_write _ _ hm
    · exact hm

/-- Scrambling changes the bytes of its region alone. -/
theorem read_scramble_outside (s : State) (n a : Nat) {m : Memory} (hm : Memory.wf m = true) {x : Nat}
    (hx : x < a ∨ a + n ≤ x) : (scramble s n a m).read x = m.read x := by
  induction n generalizing a m with
  | zero => rfl
  | succ n ih =>
    rw [scramble]
    split
    · rw [ih _ (Memory.wf_write _ _ hm) (by omega), Memory.read_write _ _ hm, if_neg (by omega)]
    · exact ih _ hm (by omega)

/-- Scrambling lists no address but backed ones. -/
theorem mem_scramble (s : State) (n a : Nat) {m : Memory} {c : Host.Cell} (h : c ∈ scramble s n a m) :
    s.admits c.1 = true ∨ c ∈ m := by
  induction n generalizing a m with
  | zero => exact .inr h
  | succ n ih =>
    rcases ih _ h with h | h
    · exact .inl h
    · split at h
      · rcases Memory.mem_write h with rfl | h
        · exact .inl (by assumption)
        · exact .inr h
      · exact .inr h

end Sys2Proof.Machine
end

