-- ==== Sys2Proof/Tests/Slice0.lean ====
section
/-! SUPPORT. The model's own tests. Expected results are the spec's: the vectors of spec/95_test_vectors.md, named in each
docstring, and the corner cases of the rules. The `witness_` theorems show that the hypotheses of each statement of
Certificates/Slice0/Obligations.lean can be met together. -/

-- One theorem's kernel check at a time: each waiting one would hold a thread and its stack.
set_option Elab.async false

namespace Sys2Proof.Tests

open Sys2Proof.Machine

/-! ### Well-formedness: an ill-formed term for each check -/

theorem test_packet_opcode_zero : (⟨0x00000000, 0, 0, 0, 0⟩ : Packet).opcodeDefined = false := by decide
theorem test_packet_opcode_reserved : (⟨0x00000006, 0, 0, 0, 0⟩ : Packet).opcodeDefined = false := by decide
theorem test_packet_reserved_field : (⟨0x80000001, 0, 0, 0, 0⟩ : Packet).reservedZero = false := by decide
theorem test_packet_select : (⟨0x00000012, 0, 0, 0, 0⟩ : Packet).selectAllowed = false := by decide
theorem test_packets_ill_formed : ((⟨0x0000000F, 0, 0, 0, 0⟩ : Packet).wf || (⟨0x00000102, 0, 0, 0, 0⟩ : Packet).wf ||
    (⟨0x00000015, 0, 0, 0, 0⟩ : Packet).wf) = false := by decide
theorem test_line_select : (Assembler.Line.init (.number 16) 0 0).wf = false := by decide
theorem test_line_number : (Assembler.Line.encb 0 8 4294967296 8).wf = false := by decide
theorem test_line_packet : (Assembler.Line.packet 0 0 0 0 4294967296).wf = false := by decide

/-! ### Decoding: words written out bit by bit from R71 and R72 (V-D2, V-D4, V-D5) -/

/-- RSV 24 zeros, SEL 0001, OP 0001. -/
theorem test_decode_init :
    decode ⟨0b000000000000000000000000_0001_0001, 0x100, 0x20, 5, 6⟩ = .ok (.init 1 0x100 0x20) := by rfl
/-- SEL 1001 decodes; it is INIT that raises UnknownSBox (V-D4). -/
theorem test_decode_init_select_nine :
    decode ⟨0b000000000000000000000000_1001_0001, 0, 0, 0, 0⟩ = .ok (.init 9 0 0) := by rfl
theorem test_decode_encb :
    decode ⟨0b000000000000000000000000_0000_0010, 1, 2, 3, 4⟩ = .ok (.encb 1 2 3 4) := by rfl
theorem test_decode_decb :
    decode ⟨0b000000000000000000000000_0000_0011, 1, 2, 3, 4⟩ = .ok (.decb 1 2 3 4) := by rfl
theorem test_decode_encn :
    decode ⟨0b000000000000000000000000_0000_0100, 1, 2, 3, 4⟩ = .ok (.encn 1 2 3 4) := by rfl
theorem test_decode_decn :
    decode ⟨0b000000000000000000000000_0000_0101, 1, 2, 3, 4⟩ = .ok (.decn 1 2 3 4) := by rfl
/-- The table's numbering: W1 stands above the 32 bits of W0. -/
theorem test_decode_table_word : decodeTableWord 96 0x00000020_00000100_00000011 = some (.init 1 0x100 0x20) := by decide
theorem test_decode_table_word_illegal : decodeTableWord 32 0x00000012 = none := by decide
/-- `INITK E-TEST, 0x100` (program P5). -/
theorem test_assemble_initk : Assembler.assemble (.initk (.name .eTest) 0x100) = some ⟨0x11, 0x100, 0x20, 0, 0⟩ := by decide
/-- `ENC1 0x200, 0x300` (program P1). -/
theorem test_assemble_enc1 : Assembler.assemble (.enc1 0x200 0x300) = some ⟨2, 0x200, 8, 0x300, 8⟩ := by decide

/-- Program P2, third line, and a `<sel>` name in mixed case. -/
theorem test_text_init : Assembler.assembleText "INIT #9, 0x100, 32".toList = some ⟨0x91, 0x100, 0x20, 0, 0⟩ ∧
    Assembler.assembleText "INITK e-Test, 0x100".toList = some ⟨0x11, 0x100, 0x20, 0, 0⟩ := by decide +kernel
/-- Program P3, third line, and program P2, last line. -/
theorem test_text_block : Assembler.assembleText "ENCI 0x200, 24".toList = some ⟨4, 0x200, 0x18, 0x200, 0x18⟩ ∧
    Assembler.assembleText ".packet 0x00000102, 0x00000200, 0x00000008, 0x00000300, 0x00000008".toList =
      some ⟨0x102, 0x200, 8, 0x300, 8⟩ := by decide +kernel
/-- A number that does not fit 32 bits, and a name of no table. -/
theorem test_text_rejected : Assembler.assembleText "DEC1 4294967296, 0".toList = none ∧
    Assembler.assembleText "INIT D-B, 0x100, 32".toList = none := by decide +kernel

/-! ### Tables, keys and the cipher's functions -/

/-- Table ST: `SBOX[16i+x] = (x + i) mod 16`. -/
def tableST : SBox := Vector.ofFn fun j => BitVec.ofNat 4 (j.val % 16 + j.val / 16)

/-- Table Z: every entry 0. -/
def tableZ : SBox := Vector.replicate 128 0

/-- Key K00..1F. -/
def keyBytes : Vector Byte 32 := Vector.ofFn fun j => BitVec.ofNat 8 j.val

/-- The sub-keys of K00..1F, written out from V-K1. -/
def subKeys : WorkingKey :=
  #v[0x03020100, 0x07060504, 0x0B0A0908, 0x0F0E0D0C, 0x13121110, 0x17161514, 0x1B1A1918, 0x1F1E1D1C]

/-- The block 00 01 .. 07. -/
def block07 : Block := Vector.ofFn fun j => BitVec.ofNat 8 j.val

/-- V-K1. -/
theorem test_keyDerive_ascending : keyDerive keyBytes = subKeys := by decide +kernel
/-- V-S4: a lane-order error would show. -/
theorem test_subst_lanes : subst tableST 0x12345678 = 0x88888888 := by decide +kernel
/-- V-S2. -/
theorem test_subst_zero : subst tableST 0 = 0x76543210 := by decide +kernel
/-- V-ROT6. -/
theorem test_rotl : rotl32 0x12345678 11 = 0xA2B3C091 := by decide
/-- V-F19. -/
theorem test_roundF : roundF tableST 0x12345678 0x87654321 = 0x6E5D487F := by decide +kernel
/-- V-F18: the sum wraps. -/
theorem test_roundF_wraps : roundF tableST 0xFFFFFFFF 1 = 0xA19083B2 := by decide +kernel
/-- V-E11, encryption. -/
theorem test_encryptBlock :
    cryptBlock tableST subKeys .encrypt block07 = #v[0xC0, 0xA4, 0x14, 0x18, 0x00, 0x0D, 0xAC, 0xA7] := by decide +kernel
/-- V-E11, decryption of the same input. -/
theorem test_decryptBlock :
    cryptBlock tableST subKeys .decrypt block07 = #v[0xC4, 0x18, 0xF6, 0x08, 0x2F, 0xA8, 0x5D, 0xC3] := by decide +kernel

/-! ### States to run on -/

/-- A platform that backs every address, key K00..1F at 0x100, the bytes 00 .. 0F at 0x200, table ST as E-TEST and table Z
elsewhere; the engine as reset leaves it. -/
def fresh : State where
  ready := false
  wk := Vector.replicate 8 0
  sbox := tableZ
  err := .ok
  halves := ⟨0, 0, 0⟩
  rom := #v[tableZ, tableST, tableZ, tableZ, tableZ, tableZ, tableZ, tableZ]
  current := none
  mem := Memory.writeList (Memory.writeList [] 0x100 ((List.range 32).map (BitVec.ofNat 8))) 0x200
    ((List.range 16).map (BitVec.ofNat 8))
  backed := [⟨0, 4294967296⟩]
  turns := []
  draws := 0
  firstError := none

/-- The same after an INIT with K00..1F and table Z. -/
def keyed : State := { fresh with ready := true, wk := subKeys }

/-- The same after an INIT with K00..1F and table ST. -/
def keyedST : State := { fresh with ready := true, wk := subKeys, sbox := tableST }

/-- A platform that backs the addresses below 0x204 alone. -/
def partly : State := { keyed with backed := [⟨0, 0x204⟩] }

/-- `f` of the next state, if there is one. -/
def after {α : Type} (r : Result) (f : State → α) : Option α :=
  match r with
  | .next t => some (f t)
  | .fault _ => none
  | .refused _ => none

theorem after_eq_some {α : Type} {r : Result} {f : State → α} {x : α} (h : after r f = some x) :
    ∃ t, r = .next t ∧ f t = x := by
  unfold after at h
  split at h
  · exact ⟨_, rfl, Option.some.inj h⟩
  · cases h
  · cases h

/-! ### One command, one step -/

/-- V-I9: WK from the key bytes, SBOX from E-TEST, STATUS 0x2. -/
theorem test_init_loads : after (exec (.init 1 0x100 32) fresh) (fun t => (t.wk, t.sbox, t.status)) =
    some (subKeys, tableST, 0x00000002) := by decide +kernel
/-- V-I7: the select code is tested before the range; STATUS shows code 2. -/
theorem test_init_error : after (exec (.init 15 0xFFFFFFE1 32) fresh) (fun t => (t.wk, t.ready, t.status)) =
    some (fresh.wk, false, 0x00000020) := by decide +kernel
/-- Program P1, second packet. -/
theorem test_encb_writes : after (exec (.encb 0x200 8 0x300 8) keyedST) (fun t => (t.mem.bytes 0x300 8, t.status)) =
    some (#v[0xC0, 0xA4, 0x14, 0x18, 0x00, 0x0D, 0xAC, 0xA7], 0x00000002) := by decide +kernel
/-- V-B4: READY is tested first. -/
theorem test_encb_error : after (exec (.encb 0x200 7 0xFFFFFFFF 0) fresh) (fun t => (t.err, t.mem)) =
    some (.engineNotInitialized, fresh.mem) := by decide +kernel
/-- V-E11 in DECB. -/
theorem test_decb_writes : after (exec (.decb 0x200 16 0x300 16) keyedST) (fun t => (t.mem.bytes 0x300 9, t.status)) =
    some (#v[0xC4, 0x18, 0xF6, 0x08, 0x2F, 0xA8, 0x5D, 0xC3, 0x00], 0x00000002) := by decide +kernel
/-- V-B7 in DECB: the destination crosses the top. -/
theorem test_decb_error : after (exec (.decb 0x300 8 0xFFFFFFF9 8) keyed) (fun t => t.err) = some .rangeError := by
  decide +kernel
/-- V-B16: the destination starts inside the source. -/
theorem test_encn_overlap : after (exec (.encn 0x200 16 0x204 16) keyed) (fun t => t.mem.bytes 0x200 20) =
    some #v[0, 1, 2, 3, 4, 5, 6, 7, 0, 1, 2, 3, 0xC, 0xD, 0xE, 0xF, 0, 1, 2, 3] := by decide +kernel
/-- V-B9: a length that is no multiple of 8. -/
theorem test_encn_error : after (exec (.encn 0x200 12 0x300 16) keyed) (fun t => t.status) = some 0x00000042 := by
  decide +kernel
/-- Table Z in place: each window's halves are exchanged (R146, R165). -/
theorem test_decn_in_place : after (exec (.decn 0x200 16 0x200 16) keyed) (fun t => t.mem.bytes 0x200 16) =
    some #v[4, 5, 6, 7, 0, 1, 2, 3, 0xC, 0xD, 0xE, 0xF, 8, 9, 0xA, 0xB] := by decide +kernel
/-- V-B10 in DECN: the destination is shorter than the source. -/
theorem test_decn_error : after (exec (.decn 0x200 16 0x300 8) keyed) (fun t => t.err) = some .bufferTooShort := by
  decide +kernel
/-- Program P2, last packet, as a step: IllegalCommand, STATUS 0x52. -/
theorem test_step_illegal : after (step (keyed.withFetchWord 160 0x00000008_00000300_00000008_00000200_00000102))
    (fun t => (t.status, t.mem)) = some (0x00000052, keyed.mem) := by decide +kernel
/-- After reset, INIT with an all-zero operand part is KLEN 0: InvalidKeyLength (V-I3). -/
theorem test_step_init_from_reset : after (step (State.reset.withFetchWord 32 0x00000001)) (fun t => (t.err, t.current)) =
    some (.invalidKeyLength, none) := by decide +kernel

/-! ### Witnesses: the hypotheses of the statements can be met -/

theorem witness_DecodeAndEncodeAgree :
    decode ⟨0x000000F1, 1, 2, 3, 4⟩ = .ok (.init 15 1 2) ∧ decode ⟨5, 1, 2, 3, 4⟩ = .ok (.decn 1 2 3 4) := ⟨rfl, rfl⟩

/-- Every clause of R77 at its boundary values, and the state that holds the packet. -/
theorem witness_IllegalPacketsRaiseIllegalCommand :
    decode ⟨0x00000000, 0, 0, 0, 0⟩ = .error .reservedOpcode ∧ decode ⟨0x00000006, 0, 0, 0, 0⟩ = .error .reservedOpcode ∧
    decode ⟨0x0000000F, 0, 0, 0, 0⟩ = .error .reservedOpcode ∧ decode ⟨0x00000101, 0, 0, 0, 0⟩ = .error .reservedField ∧
    decode ⟨0x80000001, 0, 0, 0, 0⟩ = .error .reservedField ∧ decode ⟨0x00000012, 0, 0, 0, 0⟩ = .error .selectNotZero ∧
    decode ⟨0x000000F5, 0, 0, 0, 0⟩ = .error .selectNotZero ∧
    (keyed.accept ⟨0x12, 0, 0, 0, 0⟩).current = some ⟨0x12, 0, 0, 0, 0⟩ := ⟨rfl, rfl, rfl, rfl, rfl, rfl, rfl, rfl⟩

theorem witness_UnusedInitWordsHaveNoEffect : decode ⟨0x11, 1, 2, 0xFFFFFFFF, 7⟩ = .ok (.init 1 1 2) := rfl

theorem witness_AssemblerLinesMeanTheirCommands :
    (Assembler.Line.init (.name .dA) 0xFFFFFFFF 0).wf = true ∧ (Assembler.Line.init (.number 15) 0 0xFFFFFFFF).wf = true ∧
    (Assembler.Line.encb 0xFFFFFFFF 0 0 0xFFFFFFFF).wf = true ∧ (Assembler.Line.deci 0 0xFFFFFFFF).wf = true := by decide

theorem witness_DisassemblyReassembles : decode ⟨0x0000000F, 1, 2, 3, 4⟩ = .error .reservedOpcode := rfl

theorem witness_MemoryWriteThenRead :
    Memory.wf keyed.mem = true ∧ (memWrite keyed 0xFFFFFFFE 2 #v[1, 2]).isSome = true := by decide +kernel

theorem witness_InitLoadsKeyAndTable :
    (7#4 : Nibble).toNat < 8 ∧ (0xFFFFFFE0 : Word).toNat + 32 ≤ 4294967296 ∧ fresh.admitsAll 0xFFFFFFE0 32 = true := by
  decide +kernel

/-- The last table and the last key region in range, on an engine without a key and on one with a key. -/
theorem witness_InitCompletesWhenItsChecksPass :
    (7#4 : Nibble).toNat < 8 ∧ (32 : Word).toNat = 32 ∧ (0xFFFFFFE0 : Word).toNat + 32 ≤ 4294967296 ∧
    fresh.admitsAll 0xFFFFFFE0 32 = true ∧ keyed.admitsAll 0xFFFFFFE0 32 = true := by decide +kernel

/-- One input for each clause, at the boundaries of KLEN, SEL and KADDR. -/
theorem witness_InitErrorsInOrder :
    ((31 : Word).toNat ≠ 32 ∧ (33 : Word).toNat ≠ 32) ∧ ((32 : Word).toNat = 32 ∧ 8 ≤ (8 : Nibble).toNat) ∧
    (7 : Nibble).toNat < 8 ∧ 4294967296 < (0xFFFFFFE1 : Word).toNat + 32 := by decide

theorem witness_SingleBlockCommandsTransformOneBlock :
    Memory.wf keyed.mem = true ∧ keyed.ready = true ∧ 8 ≤ (8 : Word).toNat ∧ (0xFFFFFFF8 : Word).toNat + 8 ≤ 4294967296 ∧
    keyed.admitsAll 0xFFFFFFF8 8 = true ∧ keyed.admitsAll 0x300 8 = true := by decide +kernel

/-- Two windows ending at the top of the address space, and no window at all. -/
theorem witness_BufferCommandsComplete :
    Memory.wf keyed.mem = true ∧ keyed.ready = true ∧ (16 : Word).toNat % 8 = 0 ∧
    (0xFFFFFFF0 : Word).toNat + (16 : Word).toNat ≤ 4294967296 ∧ keyed.admitsAll 0xFFFFFFF0 16 = true ∧
    keyed.admitsAll 0x300 16 = true ∧ (0 : Word).toNat % 8 = 0 ∧ keyed.admitsAll 0 0 = true := by decide +kernel

/-- In place, below, and next to the source: both commands complete without an error. -/
theorem witness_EcbTransformsEveryOriginalWindow :
    (∃ t, exec (.encn 0x200 16 0x200 16) keyed = .next t ∧ t.err = .ok) ∧
    (∃ t, exec (.decn 0x204 16 0x200 16) keyed = .next t ∧ t.err = .ok) ∧
    (∃ t, exec (.encn 0x200 16 0x210 16) keyed = .next t ∧ t.err = .ok) :=
  ⟨after_eq_some (by decide +kernel), after_eq_some (by decide +kernel), after_eq_some (by decide +kernel)⟩

/-- One window, and three. -/
theorem witness_OverlapByOneWindowChains :
    (∃ t, exec (.encn 0x200 8 0x208 8) keyed = .next t ∧ t.err = .ok) ∧
    (∃ t, exec (.decn 0x200 24 0x208 24) keyed = .next t ∧ t.err = .ok) ∧
    (0x208 : Word).toNat = (0x200 : Word).toNat + 8 :=
  ⟨after_eq_some (by decide +kernel), after_eq_some (by decide +kernel), by decide⟩

theorem witness_BufferCommandUnrollsIntoWindows :
    keyed.ready = true ∧ (8 : Word).toNat % 8 = 0 ∧ (16 : Word).toNat ≤ (0xFFFFFFFF : Word).toNat ∧
    (0xFFFFFFF8 : Word).toNat + (8 : Word).toNat ≤ 4294967296 ∧ (0xFFFFFFF0 : Word).toNat + (16 : Word).toNat ≤ 4294967296 := by
  decide

/-- One input for each clause, at the boundaries. -/
theorem witness_BlockErrorsInOrder :
    fresh.ready = false ∧ keyed.ready = true ∧ (7 : Word).toNat < 8 ∧ 8 ≤ (8 : Word).toNat ∧
    4294967296 < (0xFFFFFFF9 : Word).toNat + 8 ∧ (12 : Word).toNat % 8 ≠ 0 ∧ (15 : Word).toNat < (16 : Word).toNat ∧
    (16 : Word).toNat % 8 = 0 ∧ (16 : Word).toNat ≤ (16 : Word).toNat ∧
    4294967296 < (0xFFFFFFF1 : Word).toNat + (16 : Word).toNat := by decide

theorem witness_OneBlockInPlaceRoundTrip :
    (∃ u, exec (.encb 0x200 8 0x200 8) keyed = .next u ∧ u.err = .ok) ∧
    (∃ u, exec (.decb 0xFFFFFFF8 8 0xFFFFFFF8 8) keyed = .next u ∧ u.err = .ok) :=
  ⟨after_eq_some (by decide +kernel), after_eq_some (by decide +kernel)⟩

/-- Equal regions, in both orders, and disjoint ones that touch, on either side. -/
theorem witness_BufferRoundTripRestores :
    (∃ u, exec (.encn 0x200 16 0x200 16) keyed = .next u ∧ u.err = .ok) ∧
    (∃ u, exec (.decn 0x200 16 0x200 16) keyed = .next u ∧ u.err = .ok) ∧
    (∃ u, exec (.encn 0x200 16 0x210 16) keyed = .next u ∧ u.err = .ok) ∧
    (∃ u, exec (.encn 0x200 16 0x1F0 16) keyed = .next u ∧ u.err = .ok) :=
  ⟨after_eq_some (by decide +kernel), after_eq_some (by decide +kernel), after_eq_some (by decide +kernel), after_eq_some (by decide +kernel)⟩

theorem witness_ErrorsChangeStatusAlone :
    (∃ t, exec (.init 8 0x100 32) keyed = .next t ∧ t.err = .unknownSBox) ∧
    (∃ t, exec (.decn 0x200 12 0x300 16) keyed = .next t ∧ t.err = .bufferTooShort) :=
  ⟨after_eq_some (by decide +kernel), after_eq_some (by decide +kernel)⟩

theorem witness_EveryCommandOverwritesErr :
    ∃ t, exec (.encb 0x200 8 0x300 8) { keyed with err := .rangeError } = .next t ∧ t.err = .ok :=
  after_eq_some (by decide +kernel)

/-- Each command past its checks, with its last byte unbacked. -/
theorem witness_StuckExactlyAtUnbackedBytes :
    (partly.admits 0x203 = true ∧ partly.admits 0x204 = false) ∧
    ((0x1E5 : Word).toNat + 32 ≤ 4294967296 ∧ (0x1E5 : Word).toNat + 31 = 0x204) ∧
    ((0x1FD : Word).toNat + 7 = 0x204) ∧ ((0x1F5 : Word).toNat + 15 = 0x204) := by decide +kernel

theorem witness_NoCommandReadsOldHalves :
    (∃ t, exec (.encn 0x200 8 0x300 8) keyed = .next t ∧ t.err = .ok) ∧
    (match exec (.encn 0x200 8 0x300 8) partly with | .fault _ => true | _ => false) = true :=
  ⟨after_eq_some (by decide +kernel), by decide +kernel⟩

/-- Two states with another key, another table and other memory. -/
theorem witness_StatusIndependentOfKeyTableAndData :
    keyed.ready = { keyedST with wk := Vector.replicate 8 0, mem := [] }.ready ∧
    keyed.backed = { keyedST with wk := Vector.replicate 8 0, mem := [] }.backed ∧
    (∃ t, exec (.encb 0x200 8 0x300 8) keyed = .next t ∧ t.err = .ok) :=
  ⟨rfl, rfl, after_eq_some (by decide +kernel)⟩

theorem witness_StepRunsTheDecodedCommand :
    (keyed.accept ⟨2, 0x200, 8, 0x300, 8⟩).current = some ⟨2, 0x200, 8, 0x300, 8⟩ ∧
    (keyed.accept ⟨2, 0x200, 8, 0x300, 8⟩).turns = [] ∧
    ((keyed.accept ⟨2, 0x200, 8, 0x300, 8⟩).withTurns [.engine, .reset]).turns = .engine :: [.reset] ∧
    decode ⟨2, 0x200, 8, 0x300, 8⟩ = .ok (.encb 0x200 8 0x300 8) ∧ decodeTableWord 32 0x00000071 = some (.init 7 0 0) :=
  ⟨rfl, rfl, rfl, rfl, by decide⟩

theorem witness_IdleEngineKeepsItsState :
    keyed.current = none ∧ keyed.turns = [] ∧ (keyed.withTurns [.engine]).turns = .engine :: [] := ⟨rfl, rfl, rfl⟩

theorem witness_HostActsBetweenCommands :
    (keyed.withTurns [.write 0xFFFFFFFF 7]).current = none ∧ Memory.wf keyed.mem = true ∧ keyed.admits 0xFFFFFFFF = true ∧
    partly.admits 0x203 = true := by decide +kernel

/-- A write at the first and the last byte of the key, of the source and of the destination; a read of the destination. -/
theorem witness_HostHazardsAreRefused :
    (fresh.accept ⟨1, 0x100, 32, 0, 0⟩).current = some ⟨1, 0x100, 32, 0, 0⟩ ∧
    decode ⟨1, 0x100, 32, 0, 0⟩ = .ok (.init 0 0x100 32) ∧
    ((0x100 : Word).toNat ≤ (0x11F : Word).toNat ∧ (0x11F : Word).toNat < (0x100 : Word).toNat + 32) ∧
    decode ⟨4, 0x200, 16, 0x300, 24⟩ = .ok (.encn 0x200 16 0x300 24) ∧
    ((0x200 : Word).toNat ≤ (0x20F : Word).toNat ∧ (0x20F : Word).toNat < (0x200 : Word).toNat + (16 : Word).toNat) ∧
    ((0x300 : Word).toNat ≤ (0x317 : Word).toNat ∧ (0x317 : Word).toNat < (0x300 : Word).toNat + (24 : Word).toNat) :=
  ⟨rfl, rfl, by decide, rfl, by decide, by decide⟩

theorem witness_ResetLeavesTheSpecifiedValues :
    (keyed.withTurns [.reset]).turns = .reset :: [] ∧ (keyed.withTurns [.reset]).current = none := ⟨rfl, rfl⟩

/-- An abandoned INIT, an abandoned illegal packet and an abandoned block command. -/
theorem witness_AbandonedCommandDamagesItsDestinationAlone :
    Memory.wf keyed.mem = true ∧ ((keyed.accept ⟨3, 0x200, 8, 0x300, 9⟩).withTurns [.reset]).turns = .reset :: [] ∧
    decode ⟨3, 0x200, 8, 0x300, 9⟩ = .ok (.decb 0x200 8 0x300 9) ∧ decode ⟨1, 0x100, 32, 0, 0⟩ = .ok (.init 0 0x100 32) ∧
    decode ⟨0, 0, 0, 0, 0⟩ = .error .reservedOpcode := ⟨by decide +kernel, rfl, rfl, rfl, rfl⟩

/-- An INIT of a fresh engine changes READY, and so does a reset of an initialised one. -/
theorem witness_KeyAndTableChangeOnlyByInitOrReset :
    (∃ t, step (fresh.accept ⟨0x11, 0x100, 32, 0, 0⟩) = .next t ∧ t.ready = true) ∧
    (∃ t, step (keyed.withTurns [.reset]) = .next t ∧ t.ready = false) :=
  ⟨after_eq_some (by decide +kernel), ⟨_, rfl, rfl⟩⟩

theorem witness_ConstantsAndErrorRecordStay :
    ∃ t, step ({ keyed with firstError := some .rangeError }.accept ⟨2, 0x200, 8, 0x300, 8⟩) = .next t ∧ t.err = .ok :=
  after_eq_some (by decide +kernel)

/-- A byte the host writes, and a byte ENCB writes. -/
theorem witness_MemoryChangesOnlyInDestinations :
    Memory.wf keyed.mem = true ∧
    (∃ t, step (keyed.withTurns [.write 0x300 7]) = .next t ∧ t.mem.read 0x300 = 7) ∧
    (∃ t, step (keyed.accept ⟨2, 0x200, 8, 0x300, 8⟩) = .next t ∧ t.mem.read 0x300 = 4) ∧ keyed.mem.read 0x300 = 0 :=
  ⟨by decide +kernel, after_eq_some (by decide +kernel), after_eq_some (by decide +kernel), by decide +kernel⟩

theorem witness_StepKeepsTheInvariant :
    keyed.Inv ∧ ∃ t, step (keyed.accept ⟨4, 0x200, 16, 0x208, 16⟩) = .next t ∧ t.err = .ok :=
  ⟨⟨by decide +kernel, by decide +kernel, ⟨0, rfl⟩, fun _ => rfl, fun h => absurd rfl h⟩,
    after_eq_some (by decide +kernel)⟩

end Sys2Proof.Tests
end

section
/-! The engine's turn as one function of the state: which turn `step` takes, and what the engine does with a packet
that decodes (spec/00_scope.md R12, spec/30_encoding.md R81). -/

namespace Sys2Proof.Machine

/-- With no turn left, a step is the engine's turn. -/
theorem step_of_turns_nil {s : State} (h : s.turns = []) : step s = engineTurn s := by
  simp only [step, h]

/-- A step takes the first turn, which is no longer on the list when it is taken. -/
theorem step_of_turns_cons {s : State} {t : Turn} {ts : List Turn} (h : s.turns = t :: ts) :
    step s = takeTurn t (s.withTurns ts) := by
  simp only [step, h]

/-- The engine runs the accepted packet as the command it decodes to. -/
theorem engineTurn_of_decode_ok {s : State} {p : Packet} {i : Instr} (hc : s.current = some p)
    (hd : decode p = .ok i) : engineTurn s = exec i s := by
  simp only [engineTurn, hc, hd]

/-- Bits decode to a command exactly when their packet does. -/
theorem decodeTableWord_eq_some_iff {nbits w : Nat} {i : Instr} :
    decodeTableWord nbits w = some i ↔ decode (Packet.ofBits nbits w) = .ok i := by
  unfold decodeTableWord
  cases decode (Packet.ofBits nbits w) <;> simp

/-- `withFetchWord` adds an engine turn exactly when turns are left, so the next step is the engine's either way, and
the turns it leaves are those that stood there before. -/
theorem step_withFetchWord (s : State) (nbits w : Nat) :
    step (s.withFetchWord nbits w) = engineTurn (s.accept (Packet.ofBits nbits w)) := by
  cases hs : s.turns with
  | nil =>
    have same : s.withFetchWord nbits w = s.accept (Packet.ofBits nbits w) := by
      rw [State.withFetchWord, hs, engineFirst, ← hs]; rfl
    rw [same, step_of_turns_nil (by rw [State.accept_turns, hs])]
  | cons t ts =>
    have first : (s.withFetchWord nbits w).turns = .engine :: s.turns := by
      rw [State.withFetchWord, State.withTurns_turns, hs, engineFirst]
    rw [step_of_turns_cons first]; rfl

/-- Settles O32: each way the turn comes to the engine, the step is `engineTurn`, which executes the decoded command. -/
theorem stepRunsTheDecodedCommand : Obligations.StepRunsTheDecodedCommand := by
  refine ⟨fun s p i hc hd => ⟨fun hs => ?_, fun ts hs => ?_⟩, fun s nbits w i hw => ?_⟩
  · rw [step_of_turns_nil hs, engineTurn_of_decode_ok hc hd]
  · rw [step_of_turns_cons hs]
    exact engineTurn_of_decode_ok hc hd
  · rw [step_withFetchWord]
    exact engineTurn_of_decode_ok rfl (decodeTableWord_eq_some_iff.1 hw)

end Sys2Proof.Machine
end

section
/-! The invariant of the machine: each update of the state keeps it, so every command and every step does
(spec/10_state.md R21, R25; spec/20_memory.md R50, R51; spec/60_exceptions.md R211). -/

namespace Sys2Proof.Machine

theorem memBacked_iff {s : State} : s.memBacked = true ↔ ∀ c ∈ s.mem, s.admits c.1 = true := List.all_eq_true

/-- Scrambling a list of regions keeps the canonical form. -/
theorem wf_scrambleRegions (s : State) (rs : List Region) {m : Memory} (hm : Memory.wf m = true) :
    Memory.wf (scrambleRegions s rs m) = true := by
  induction rs generalizing m with
  | nil => exact hm
  | cons r rs ih => exact ih (wf_scramble s r.size r.base hm)

/-- Scrambling a list of regions lists no address but backed ones. -/
theorem mem_scrambleRegions (s : State) (rs : List Region) {m : Memory} {c : Host.Cell}
    (h : c ∈ scrambleRegions s rs m) : s.admits c.1 = true ∨ c ∈ m := by
  induction rs generalizing m with
  | nil => exact .inr h
  | cons r rs ih =>
    rcases ih h with h | h
    · exact .inl h
    · exact mem_scramble s r.size r.base h

namespace State.Inv

variable {s : State}

theorem withTurns (h : s.Inv) (ts : List Turn) : (s.withTurns ts).Inv :=
  ⟨h.canonical, h.backed, h.table, h.builtIn, h.recorded⟩

theorem accept (h : s.Inv) (p : Packet) : (s.accept p).Inv :=
  ⟨h.canonical, h.backed, h.table, h.builtIn, h.recorded⟩

theorem releaseHalves (h : s.Inv) : s.releaseHalves.Inv :=
  ⟨h.canonical, h.backed, h.table, h.builtIn, h.recorded⟩

theorem finish (h : s.Inv) : s.finish.Inv :=
  ⟨h.canonical, h.backed, h.table, h.builtIn, fun he => absurd rfl he⟩

theorem raise (h : s.Inv) (e : ErrCode) : (s.raise e).Inv :=
  ⟨h.canonical, h.backed, h.table, h.builtIn, fun _ => rfl⟩

theorem loadKey (h : s.Inv) (wk : WorkingKey) (k : Fin 8) : (s.loadKey wk s.rom[k]).Inv :=
  ⟨h.canonical, h.backed, ⟨k, rfl⟩, nofun, h.recorded⟩

theorem resetEngine (h : s.Inv) : s.resetEngine.Inv where
  canonical := wf_scrambleRegions s _ h.canonical
  backed := memBacked_iff.2 fun c hc => (mem_scrambleRegions s _ hc).elim id (memBacked_iff.1 h.backed c)
  table := ⟨0, rfl⟩
  builtIn _ := rfl
  recorded he := absurd rfl he

/-- Writing backed bytes keeps the invariant. -/
theorem withMem_writeList (h : s.Inv) {a : Nat} {bs : List Byte} (ha : s.admitsAll a bs.length = true) :
    (s.withMem (s.mem.writeList a bs)).Inv := by
  refine ⟨Memory.wf_writeList a bs h.canonical, memBacked_iff.2 fun c hc => ?_, h.table, h.builtIn, h.recorded⟩
  rcases Memory.mem_writeList hc with ⟨hlo, hhi⟩ | hc
  · have := admitsAll_iff.1 ha (c.1 - a) (by omega)
    rwa [Nat.add_sub_cancel' hlo] at this
  · exact memBacked_iff.1 h.backed c hc

/-- Writing one backed byte keeps the invariant. -/
theorem withMem_write (h : s.Inv) {a : Nat} (b : Byte) (ha : s.admits a = true) : (s.withMem (s.mem.write a b)).Inv :=
  h.withMem_writeList (bs := [b]) (by simpa [admitsAll_iff] using ha)

theorem of_window {d : Direction} {src dst : Nat} {t : State} (h : s.Inv) (hw : window d src dst s = some t) :
    t.Inv := by
  obtain ⟨-, hd, rfl⟩ := window_eq_some.1 hw
  exact h.releaseHalves.withMem_writeList (by rw [Vector.length_toList]; exact hd)

theorem of_windows {d : Direction} {n src dst : Nat} {t : State} (h : s.Inv) (hw : windows d n src dst s = some t) :
    t.Inv := by
  induction n generalizing src dst s with
  | zero => cases hw; exact h
  | succ n ih =>
    obtain ⟨u, hu, ht⟩ := windows_succ_eq_some.1 hw
    exact ih (h.of_window hu) ht

/-- Every command keeps the invariant. -/
theorem of_exec {i : Instr} {t : State} (h : s.Inv) (hx : exec i s = .next t) : t.Inv := by
  cases exec_next hx with
  | error e _ ht => exact ht ▸ h.raise e
  | keyLoaded wk k ht => exact ht ▸ (h.loadKey wk k).finish
  | transformed d n src dst u _ hu ht => exact ht ▸ (h.of_windows hu).finish

end State.Inv

/-- Settles O41: each way a step can end is an update of the state that keeps the invariant. -/
theorem stepKeepsTheInvariant : Obligations.StepKeepsTheInvariant := by
  intro s t hs h
  have hs' : (s.withTurns s.turns.tail).Inv := hs.withTurns _
  cases step_next h with
  | idle _ _ ht => exact ht ▸ hs'
  | command _ _ _ _ _ ht => exact hs'.of_exec ht
  | illegal _ _ _ _ _ ht => exact ht ▸ hs'.raise _
  | accepted p _ _ ht => exact ht ▸ hs'.accept p
  | written a b _ ha _ ht => exact ht ▸ hs'.withMem_write b ha
  | read _ _ _ _ ht => exact ht ▸ hs'
  | reset _ ht => exact ht ▸ hs'.resetEngine

/-- Settles O42: nothing is listed, READY is 0, the table is the ROM's table 0 and ERR is OK. -/
theorem resetStateMeetsTheInvariant : Obligations.ResetStateMeetsTheInvariant :=
  ⟨rfl, rfl, ⟨0, rfl⟩, fun _ => rfl, fun he => absurd rfl he⟩

end Sys2Proof.Machine
end

section
/-! STATUS bit by bit (spec/10_state.md R30, R33). -/

namespace Sys2Proof.Machine

/-- Which field each bit of STATUS belongs to (R33). -/
theorem status_getLsbD (s : State) (j : Nat) :
    s.status.getLsbD j =
      if j = 0 then s.busy else if j = 1 then s.ready else if j < 4 then false
      else if j < 8 then s.err.code.getLsbD (j - 4) else false := by
  simp only [State.status, BitVec.getLsbD_append, BitVec.getLsbD_ofBool, Nat.sub_sub, BitVec.getLsbD_zero]
  obtain rfl | rfl | hj : j = 0 ∨ j = 1 ∨ 2 ≤ j := by omega
  · rfl
  · rfl
  · have reserved : j - (1 + 1) < 2 ↔ j < 4 := by omega
    have err : j - (1 + 1 + 2) < 4 ↔ j < 8 := by omega
    rw [if_neg (show ¬ j < 1 by omega), if_neg (show ¬ j - 1 < 1 by omega), if_neg (show j ≠ 0 by omega),
      if_neg (show j ≠ 1 by omega)]
    simp only [reserved, err]

theorem status_bit_busy (s : State) : s.status.getLsbD 0 = s.current.isSome := status_getLsbD s 0

theorem status_bit_ready (s : State) : s.status.getLsbD 1 = s.ready := status_getLsbD s 1

/-- STATUS is 0 when the engine is idle without a key and shows no error. -/
theorem status_eq_zero {s : State} (hc : s.current = none) (hr : s.ready = false) (he : s.err = .ok) :
    s.status = 0 := by
  rw [State.status, State.busy, hc, hr, he]
  rfl

/-- Settles O16: each field of STATUS is read off its bits. -/
theorem statusFields : Obligations.StatusFields := by
  refine ⟨fun s => ⟨status_bit_busy s, status_bit_ready s, ?_, ?_, ?_⟩, status_eq_zero rfl rfl rfl,
    rfl, rfl, rfl, rfl, rfl, rfl, rfl⟩ <;> ext j hj <;> rw [BitVec.getElem_extractLsb', status_getLsbD]
  · rw [if_neg (by omega), if_neg (by omega), if_pos (by omega)]
    simp
  · rw [if_neg (by omega), if_neg (by omega), if_neg (by omega), if_pos (by omega), Nat.add_sub_cancel_left]
    rfl
  · rw [if_neg (by omega), if_neg (by omega), if_neg (by omega), if_neg (by omega)]
    simp

end Sys2Proof.Machine
end

section
/-! Frames and courses of a command: which registers a run of windows keeps, and that which course a command takes (an
error, a key load, a run of windows) depends on its operands and READY alone (spec/60_exceptions.md R208, R209). -/

namespace Sys2Proof.Machine

/-- A run of windows writes memory and the halves alone; this much of `windows_frame` needs no canonical memory. -/
theorem windows_keepsRegisters {d : Direction} {n src dst : Nat} {s t : State} (h : windows d n src dst s = some t) :
    KeepsRegisters s t := by
  induction n generalizing src dst s with
  | zero => cases h; exact ⟨rfl, rfl, rfl, rfl, rfl, rfl, rfl⟩
  | succ n ih =>
    obtain ⟨u, hu, ht⟩ := windows_succ_eq_some.1 h
    obtain ⟨-, -, rfl⟩ := window_eq_some.1 hu
    obtain ⟨ready, wk, sbox, rom, backed, turns, firstError⟩ := ih ht
    exact ⟨ready, wk, sbox, rom, backed, turns, firstError⟩

/-- A run of one window is that window. -/
theorem windows_one (d : Direction) (src dst : Nat) (s : State) : windows d 1 src dst s = window d src dst s := by
  rw [windows]
  cases window d src dst s <;> rfl

/-- Everything `initialise` can answer. -/
theorem initialise_eq_some {kaddr : Word} {table : SBox} {s t : State} :
    initialise kaddr table s = some t ↔
      s.admitsAll kaddr.toNat 32 = true ∧ t = s.loadKey (keyDerive (s.mem.bytes kaddr.toNat 32)) table := by
  unfold initialise
  by_cases h : s.admitsAll kaddr.toNat 32 = true
  · simp [memRead_of_backed h, h, eq_comm]
  · have stuck : memRead s kaddr.toNat 32 = none := if_neg h
    simp [stuck, h]

/-- On every state with READY = `r`, `f` ends with one and the same error, or runs one and the same windows. -/
def ErrorOrWindows (f : State → Result) (r : Bool) : Prop :=
  (∃ e, ∀ s, s.ready = r → f s = raised e s) ∨
  ∃ d n src dst, ∀ s, s.ready = r → f s = completed (windows d n src dst s)

/-- A check of the operands in front keeps the course of a block command fixed. -/
theorem ErrorOrWindows.operandCheck {f : State → Result} {r : Bool} (hf : ErrorOrWindows f r) (p : Prop) [Decidable p]
    (e : ErrCode) : ErrorOrWindows (fun s => if p then raised e s else f s) r := by
  by_cases hp : p
  · exact .inl ⟨e, fun s _ => if_pos hp⟩
  · simpa only [if_neg hp] using hf

/-- The check of READY in front keeps the course of a block command fixed. -/
theorem ErrorOrWindows.readyCheck {f : State → Result} {r : Bool} (hf : ErrorOrWindows f r) (e : ErrCode) :
    ErrorOrWindows (fun s => if s.ready = false then raised e s else f s) r := by
  cases r with
  | false => exact .inl ⟨e, fun s hs => if_pos hs⟩
  | true =>
    have skip (s : State) (hs : s.ready = true) : (if s.ready = false then raised e s else f s) = f s :=
      if_neg (by simp [hs])
    exact hf.imp (fun ⟨e', h⟩ => ⟨e', fun s hs => (skip s hs).trans (h s hs)⟩)
      fun ⟨d, n, src, dst, h⟩ => ⟨d, n, src, dst, fun s hs => (skip s hs).trans (h s hs)⟩

theorem singleBlock_errorOrWindows (d : Direction) (src slen dst dlen : Word) (r : Bool) :
    ErrorOrWindows (singleBlock d src slen dst dlen) r := by
  have last : ErrorOrWindows (fun s => completed (window d src.toNat dst.toNat s)) r :=
    .inr ⟨d, 1, src.toNat, dst.toNat, fun s _ => by rw [windows_one]⟩
  exact ((((last.operandCheck _ _).operandCheck _ _).operandCheck _ _).operandCheck _ _).readyCheck _

theorem manyBlocks_errorOrWindows (d : Direction) (src slen dst dlen : Word) (r : Bool) :
    ErrorOrWindows (manyBlocks d src slen dst dlen) r := by
  have last : ErrorOrWindows (fun s => completed (windows d (slen.toNat / 8) src.toNat dst.toNat s)) r :=
    .inr ⟨d, _, src.toNat, dst.toNat, fun _ _ => rfl⟩
  exact ((((last.operandCheck _ _).operandCheck _ _).operandCheck _ _).operandCheck _ _).readyCheck _

/-- The course command `i` takes on every state with READY = `r`. -/
inductive Course (i : Instr) (r : Bool) : Prop where
  | error (e : ErrCode) (run : ∀ s, s.ready = r → exec i s = raised e s)
  | load (sel : Nibble) (kaddr klen : Word) (hi : i = .init sel kaddr klen) (hs : sel.toNat < 8)
      (run : ∀ s, s.ready = r → exec i s = completed (initialise kaddr s.rom[sel.toNat] s))
  | transform (d : Direction) (n src dst : Nat)
      (run : ∀ s, s.ready = r → exec i s = completed (windows d n src dst s))

theorem Course.ofErrorOrWindows {i : Instr} {r : Bool} (h : ErrorOrWindows (exec i) r) : Course i r := by
  obtain ⟨e, h⟩ | ⟨d, n, src, dst, h⟩ := h
  · exact .error e h
  · exact .transform d n src dst h

/-- The operands and READY fix the course of every command (R208, R209). -/
theorem exec_course (i : Instr) (r : Bool) : Course i r := by
  cases i with
  | init sel kaddr klen =>
    by_cases hk : klen.toNat = Config.keyBytes
    · by_cases hs : sel.toNat < 8
      · cases hr : inRange kaddr.toNat Config.keyBytes
        · exact .error .rangeError fun s _ => by simp [exec, execInit, hk, hs, hr]
        · exact .load sel kaddr klen rfl hs fun s _ => by simp [exec, execInit, hk, hs, hr]
      · exact .error .unknownSBox fun s _ => by simp [exec, execInit, hk, hs]
    · exact .error .invalidKeyLength fun s _ => by simp [exec, execInit, hk]
  | encb src slen dst dlen => exact .ofErrorOrWindows (singleBlock_errorOrWindows .encrypt src slen dst dlen r)
  | decb src slen dst dlen => exact .ofErrorOrWindows (singleBlock_errorOrWindows .decrypt src slen dst dlen r)
  | encn src slen dst dlen => exact .ofErrorOrWindows (manyBlocks_errorOrWindows .encrypt src slen dst dlen r)
  | decn src slen dst dlen => exact .ofErrorOrWindows (manyBlocks_errorOrWindows .decrypt src slen dst dlen r)

end Sys2Proof.Machine
end

section
/-! Old values a command does not read: ERR (spec/10_state.md R31) and N1, N2, ROUND (R28). -/

namespace Sys2Proof.Machine

theorem completed_map_err (o : Option State) (e : ErrCode) :
    completed (o.map fun u => { u with err := e }) = completed o := by
  cases o <;> rfl

/-- A window carries ERR along unread. -/
theorem window_err (d : Direction) (src dst : Nat) (s : State) (e : ErrCode) :
    window d src dst { s with err := e } = (window d src dst s).map fun u => { u with err := e } := by
  ext t
  simp only [Option.map_eq_some_iff, window_eq_some]
  constructor
  · rintro ⟨hs, hd, rfl⟩
    exact ⟨_, ⟨hs, hd, rfl⟩, rfl⟩
  · rintro ⟨_, ⟨hs, hd, rfl⟩, rfl⟩
    exact ⟨hs, hd, rfl⟩

/-- A run of windows carries ERR along unread. -/
theorem windows_err (d : Direction) (n src dst : Nat) (s : State) (e : ErrCode) :
    windows d n src dst { s with err := e } = (windows d n src dst s).map fun u => { u with err := e } := by
  induction n generalizing src dst s with
  | zero => rfl
  | succ n ih =>
    rw [windows, windows, window_err]
    cases window d src dst s with
    | none => rfl
    | some u => exact ih _ _ u

theorem initialise_err (kaddr : Word) (table : SBox) (s : State) (e : ErrCode) :
    initialise kaddr table { s with err := e } = (initialise kaddr table s).map fun u => { u with err := e } := by
  rw [initialise, initialise, memRead_congr (s := s) (t := { s with err := e }) rfl rfl]
  cases memRead s kaddr.toNat 32 <;> rfl

/-- A command overwrites ERR unread. -/
theorem exec_err (i : Instr) (s : State) (e : ErrCode) : exec i { s with err := e } = exec i s := by
  cases exec_course i s.ready with
  | error e' run => rw [run s rfl, run { s with err := e } rfl]; rfl
  | load sel kaddr klen hi hs run => rw [run s rfl, run { s with err := e } rfl, initialise_err, completed_map_err]
  | transform d n src dst run => rw [run s rfl, run { s with err := e } rfl, windows_err, completed_map_err]

/-- Once a command completes, no packet is pending. -/
theorem exec_current {i : Instr} {s t : State} (h : exec i s = .next t) : t.current = none := by
  cases exec_next h with
  | error _ _ ht => exact ht ▸ rfl
  | keyLoaded _ _ ht => exact ht ▸ rfl
  | transformed _ _ _ _ _ _ _ ht => exact ht ▸ rfl

/-- Settles O28: no course of a command reads ERR, and each of them ends with no packet pending. -/
theorem everyCommandOverwritesErr : Obligations.EveryCommandOverwritesErr := by
  refine ⟨exec_err, fun i s t h => ?_⟩
  have hc := exec_current h
  exact ⟨hc, by rw [status_bit_busy, hc]; rfl⟩

/-- A window loads the halves before it reads them, and releases them at its end. -/
theorem window_setHalves (d : Direction) (src dst : Nat) (s : State) (h : Halves) :
    window d src dst (s.setHalves h) = window d src dst s := rfl

/-- A run of windows carries the halves along unread when it has no window, and forgets them otherwise. -/
theorem windows_setHalves (d : Direction) (n src dst : Nat) (s : State) (h : Halves) :
    ∃ h', windows d n src dst (s.setHalves h) = (windows d n src dst s).map fun u => u.setHalves h' := by
  cases n with
  | zero => exact ⟨h, rfl⟩
  | succ n =>
    have same : windows d (n + 1) src dst (s.setHalves h) = windows d (n + 1) src dst s := by
      rw [windows, windows, window_setHalves]
    cases hw : windows d (n + 1) src dst s with
    | none => exact ⟨h, same.trans hw⟩
    | some u => exact ⟨u.halves, same.trans hw⟩

theorem initialise_setHalves (kaddr : Word) (table : SBox) (s : State) (h : Halves) :
    initialise kaddr table (s.setHalves h) = (initialise kaddr table s).map fun u => u.setHalves h := by
  rw [initialise, initialise, memRead_congr (s := s) (t := s.setHalves h) rfl rfl]
  cases memRead s kaddr.toNat 32 <;> rfl

/-- The second outcome is the first but for the halves of its next state. -/
inductive SameButHalves : Result → Result → Prop where
  | next (t : State) (h : Halves) : SameButHalves (.next t) (.next (t.setHalves h))
  | fault (f : Fault) : SameButHalves (.fault f) (.fault f)

theorem completed_sameButHalves (o : Option State) (h : Halves) :
    SameButHalves (completed o) (completed (o.map fun u => u.setHalves h)) := by
  cases o with
  | none => exact .fault _
  | some u => exact .next u.finish h

/-- Other halves before a command change at most the halves after it. -/
theorem exec_setHalves (i : Instr) (s : State) (h : Halves) :
    SameButHalves (exec i s) (exec i (s.setHalves h)) := by
  cases exec_course i s.ready with
  | error e run => rw [run s rfl, run (s.setHalves h) rfl]; exact .next (s.raise e) h
  | load sel kaddr klen hi hs run =>
    rw [run s rfl, run (s.setHalves h) rfl, initialise_setHalves]
    exact completed_sameButHalves _ h
  | transform d n src dst run =>
    obtain ⟨h', hw⟩ := windows_setHalves d n src dst s h
    rw [run s rfl, run (s.setHalves h) rfl, hw]
    exact completed_sameButHalves _ h'

/-- Settles O30: with other halves the outcome is the same but for the halves. -/
theorem noCommandReadsOldHalves : Obligations.NoCommandReadsOldHalves := by
  intro i s h
  have same : SameButHalves (exec i s) (exec i { s with halves := h }) := exec_setHalves i s h
  refine ⟨fun t ht => ?_, fun hf => ?_⟩
  · rw [ht] at same
    generalize exec i { s with halves := h } = r at same ⊢
    cases same with
    | next _ h' => exact ⟨h', rfl⟩
  · rw [hf] at same
    generalize exec i { s with halves := h } = r at same ⊢
    cases same
    rfl

end Sys2Proof.Machine
end

section
/-! What changes READY, WK and SBOX, and what no step changes (spec/10_state.md R21, R23, R25, R27; spec/20_memory.md
R59; spec/60_exceptions.md R211). -/

namespace Sys2Proof.Machine

/-- A command keeps READY, WK and SBOX, or it is an INIT that succeeds. -/
theorem exec_keepsKey_or_loads {i : Instr} {s t : State} (h : exec i s = .next t) :
    (t.ready = s.ready ∧ t.wk = s.wk ∧ t.sbox = s.sbox) ∨
    (t.ready = true ∧ t.err = .ok ∧ ∃ sel kaddr klen, i = .init sel kaddr klen ∧
      ∃ hs : sel.toNat < 8, t.sbox = s.rom[sel.toNat]) := by
  cases exec_course i s.ready with
  | error e run =>
    cases (run s rfl).symm.trans h
    exact .inl ⟨rfl, rfl, rfl⟩
  | load sel kaddr klen hi hs run =>
    obtain ⟨u, hu, rfl⟩ := completed_eq_next.1 ((run s rfl).symm.trans h)
    obtain ⟨-, rfl⟩ := initialise_eq_some.1 hu
    exact .inr ⟨rfl, rfl, sel, kaddr, klen, hi, hs, rfl⟩
  | transform d n src dst run =>
    obtain ⟨u, hu, rfl⟩ := completed_eq_next.1 ((run s rfl).symm.trans h)
    have keeps := windows_keepsRegisters hu
    exact .inl ⟨keeps.ready, keeps.wk, keeps.sbox⟩

/-- Settles O38: of the ways a step can end, only a reset and a successful INIT touch READY, WK or SBOX. -/
theorem keyAndTableChangeOnlyByInitOrReset : Obligations.KeyAndTableChangeOnlyByInitOrReset := by
  intro s t h changed
  have kept (hr : t.ready = s.ready) (hw : t.wk = s.wk) (hb : t.sbox = s.sbox) : False := by
    simp [hr, hw, hb] at changed
  cases step_next h with
  | idle _ _ ht => subst ht; exact (kept rfl rfl rfl).elim
  | command p i hh hc hd ht =>
    obtain ⟨hr, hw, hb⟩ | ⟨hr, he, sel, kaddr, klen, rfl, hs, hb⟩ := exec_keepsKey_or_loads ht
    · exact (kept hr hw hb).elim
    · exact .inr ⟨hh, hr, he, p, sel, kaddr, klen, hc, hd, hs, hb⟩
  | illegal _ _ _ _ _ ht => subst ht; exact (kept rfl rfl rfl).elim
  | accepted _ _ _ ht => subst ht; exact (kept rfl rfl rfl).elim
  | written _ _ _ _ _ ht => subst ht; exact (kept rfl rfl rfl).elim
  | read _ _ _ _ ht => subst ht; exact (kept rfl rfl rfl).elim
  | reset hh ht => subst ht; exact .inl ⟨hh, rfl, rfl⟩

/-- An error does not replace the one on record. -/
theorem raise_keepsRecord {s : State} {e : ErrCode} (h : s.firstError = some e) (e' : ErrCode) :
    (s.raise e').firstError = some e := by
  simp [h]

/-- A command keeps the ROM, the platform map and an error on record. -/
theorem exec_keepsConstants {i : Instr} {s t : State} (h : exec i s = .next t) :
    t.rom = s.rom ∧ t.backed = s.backed ∧ ∀ e, s.firstError = some e → t.firstError = some e := by
  cases exec_next h with
  | error e _ ht => exact ht ▸ ⟨rfl, rfl, fun _ hf => raise_keepsRecord hf e⟩
  | keyLoaded _ _ ht => exact ht ▸ ⟨rfl, rfl, fun _ hf => hf⟩
  | transformed _ _ _ _ u _ hu ht =>
    have keeps := windows_keepsRegisters hu
    exact ht ▸ ⟨keeps.rom, keeps.backed, fun _ hf => keeps.firstError.trans hf⟩

/-- Settles O39: each way a step can end keeps the two constants, and only an error writes the record. -/
theorem constantsAndErrorRecordStay : Obligations.ConstantsAndErrorRecordStay := by
  intro s t h
  cases step_next h with
  | idle _ _ ht => exact ht ▸ ⟨rfl, rfl, fun _ hf => hf⟩
  | command _ _ _ _ _ ht => exact exec_keepsConstants (s := s.withTurns s.turns.tail) ht
  | illegal _ _ _ _ _ ht =>
    exact ht ▸ ⟨rfl, rfl, fun _ hf => raise_keepsRecord (s := s.withTurns s.turns.tail) hf _⟩
  | accepted _ _ _ ht => exact ht ▸ ⟨rfl, rfl, fun _ hf => hf⟩
  | written _ _ _ _ _ ht => exact ht ▸ ⟨rfl, rfl, fun _ hf => hf⟩
  | read _ _ _ _ ht => exact ht ▸ ⟨rfl, rfl, fun _ hf => hf⟩
  | reset _ ht => exact ht ▸ ⟨rfl, rfl, fun _ hf => hf⟩

end Sys2Proof.Machine
end

section
/-! The turns of the host and of the reset input (spec/10_state.md R37; spec/20_memory.md R50, R58, R62;
spec/30_encoding.md R70; spec/70_reset_and_hazards.md R230). -/

namespace Sys2Proof.Machine

theorem State.busy_eq_false {s : State} (h : s.current = none) : s.busy = false := by
  simp [State.busy, h]

/-- With no command executing, no region is guarded against a write. -/
theorem State.guardedWrites_idle {s : State} (h : s.current = none) : s.guardedWrites = [] := by
  simp [State.guardedWrites, h]

/-- With no command executing, no region is guarded against a read, and a reset abandons none. -/
theorem State.guardedReads_idle {s : State} (h : s.current = none) : s.guardedReads = [] := by
  simp [State.guardedReads, h]

theorem presentTurn_idle {s : State} (h : s.current = none) (p : Packet) : presentTurn p s = .next (s.accept p) := by
  simp [presentTurn, State.busy_eq_false h]

theorem writeTurn_idle {s : State} (h : s.current = none) {a : Word} (ha : s.admits a.toNat = true) (b : Byte) :
    writeTurn a b s = .next (s.withMem (s.mem.write a.toNat b)) := by
  simp [writeTurn, State.guardedWrites_idle h, inRegions, ha]

theorem readTurn_idle {s : State} (h : s.current = none) {a : Word} (ha : s.admits a.toNat = true) :
    readTurn a s = .next s := by
  simp [readTurn, State.guardedReads_idle h, inRegions, ha]

/-- Settles O34: an idle engine refuses none of the host's three actions. -/
theorem hostActsBetweenCommands : Obligations.HostActsBetweenCommands := by
  intro s ts hc
  have idle : (s.withTurns ts).current = none := hc
  refine ⟨fun p hs => ⟨?_, status_bit_busy _⟩, fun a b hs hm ha => ⟨s.mem.write a.toNat b, ?_, ?_⟩,
    fun a hs ha => ?_⟩
  · rw [step_of_turns_cons hs]
    exact presentTurn_idle idle p
  · rw [step_of_turns_cons hs]
    exact writeTurn_idle idle ha b
  · exact Memory.read_write a.toNat b hm
  · rw [step_of_turns_cons hs]
    exact readTurn_idle idle ha

/-- With no command to abandon, a reset leaves memory as it was. -/
theorem resetEngine_mem_idle {s : State} (h : s.current = none) : s.resetEngine.mem = s.mem := by
  rw [State.resetEngine_mem, State.guardedReads_idle h]
  rfl

/-- Settles O36: what `resetEngine` writes, and what it keeps. -/
theorem resetLeavesTheSpecifiedValues : Obligations.ResetLeavesTheSpecifiedValues := by
  refine ⟨fun s ts hs => ⟨(s.withTurns ts).resetEngine, ?_, rfl, rfl, status_eq_zero rfl rfl rfl, rfl, rfl, rfl,
    fun hc => ?_⟩, rfl, rfl, status_eq_zero rfl rfl rfl⟩
  · rw [step_of_turns_cons hs]; rfl
  · exact resetEngine_mem_idle (s := s.withTurns ts) hc

end Sys2Proof.Machine
end

section
/-! Byte order in numbers: words assembled from bytes and taken apart again (spec/20_memory.md R53, R54). -/

namespace Sys2Proof.Machine

/-- `LE32` puts the first byte lowest (R9). -/
theorem le32_eq_append (b0 b1 b2 b3 : Byte) : le32 b0 b1 b2 b3 = b3 ++ b2 ++ b1 ++ b0 := by
  apply BitVec.eq_of_getLsbD_eq
  intro j _
  simp only [le32_bit, BitVec.getLsbD_append, Nat.sub_sub]
  split
  · rfl
  · have second : j - 8 < 8 ↔ j < 16 := by omega
    have third : j - (8 + 8) < 8 ↔ j < 24 := by omega
    simp only [second, third]
    
/-- The number an assembled word stands for (R9). -/
theorem le32_toNat (b0 b1 b2 b3 : Byte) :
    (le32 b0 b1 b2 b3).toNat = b0.toNat + 256 * b1.toNat + 65536 * b2.toNat + 16777216 * b3.toNat := by
  have digit {n : Nat} (hi : BitVec n) (lo : Byte) : (hi ++ lo).toNat = 256 * hi.toNat + lo.toNat := by
    rw [BitVec.toNat_append, ← Nat.shiftLeft_add_eq_or_of_lt lo.isLt, Nat.shiftLeft_eq, Nat.mul_comm]
  rw [le32_eq_append, digit, digit, digit]
  omega

/-- Byte `i` of a word is its digit `i` in base 256 (R9). -/
theorem le32Byte_toNat (w : Word) (i : Nat) : (le32Byte w i).toNat = w.toNat / 256 ^ i % 256 := by
  rw [le32Byte, BitVec.extractLsb'_toNat, Nat.shiftRight_eq_div_pow, Nat.pow_mul]

/-- Byte `j` of sub-key `i` is the key byte it was made from (R53, R100). -/
theorem le32Byte_keyDerive (k : Vector Byte 32) {i j : Nat} (hi : i < 8) (hj : j < 4) :
    le32Byte (keyDerive k)[i] j = k[4 * i + j] := by
  obtain ⟨e0, e1, e2, e3⟩ := le32Byte_le32 k[4 * i] k[4 * i + 1] k[4 * i + 2] k[4 * i + 3]
  rw [keyDerive, Vector.getElem_ofFn]
  match j, hj with
  | 0, _ => exact e0
  | 1, _ => exact e1
  | 2, _ => exact e2
  | 3, _ => exact e3

/-- The sub-keys determine the key: each of its bytes can be read back from them. -/
theorem keyDerive_injective {k k' : Vector Byte 32} (h : keyDerive k = keyDerive k') : k = k' := by
  ext1 n hn
  have back (k : Vector Byte 32) : k[n] = le32Byte (keyDerive k)[n / 4] (n % 4) := by
    simp only [le32Byte_keyDerive k (show n / 4 < 8 by omega) (Nat.mod_lt n (by decide)), Nat.div_add_mod]
  rw [back k, back k', h]

/-- Settles O7: a sub-key is the number of its four bytes, and they can be read back. -/
theorem keyScheduleIsLittleEndian : Obligations.KeyScheduleIsLittleEndian := by
  refine ⟨fun k i h => ?_, fun _ _ => keyDerive_injective⟩
  rw [keyDerive, Vector.getElem_ofFn, le32_toNat]

/-- Byte `i` of a packed block is a byte of the half it falls in, the low half first (R145). -/
theorem pack_getElem (h : Halves) (i : Nat) (hi : i < 8) :
    (pack h)[i] = if i < 4 then le32Byte h.n1 i else le32Byte h.n2 (i - 4) := by
  match i, hi with
  | 0, _ | 1, _ | 2, _ | 3, _ | 4, _ | 5, _ | 6, _ | 7, _ => rfl

/-- Settles O8: unpacking assembles the number of each half, and packing writes its digits. -/
theorem blockHalvesAreLittleEndian : Obligations.BlockHalvesAreLittleEndian := by
  refine ⟨fun b => ⟨le32_toNat .., le32_toNat ..⟩, fun h i hi => ?_⟩
  rw [pack_getElem]
  split
  · exact le32Byte_toNat h.n1 i
  · exact le32Byte_toNat h.n2 (i - 4)

end Sys2Proof.Machine
end

section
/-! Reading back what was written (spec/20_memory.md R51). -/

namespace Sys2Proof.Machine

/-- A region reads as the bytes written over it. -/
theorem bytes_writeList {m : Memory} (hm : Memory.wf m = true) (a : Nat) {n : Nat} (v : Vector Byte n) :
    Memory.bytes (m.writeList a v.toList) a n = v := by
  ext1 i hi
  rw [bytes_getElem, Memory.read_writeList _ _ hm, dif_pos (by simp [hi])]
  simp

/-- Settles O15: `memWrite` answers the state with the bytes written over the region, once that is backed. -/
theorem memoryWriteThenRead : Obligations.MemoryWriteThenRead := by
  intro s a n v hm
  refine ⟨?_, fun t ht => ?_⟩
  · simp only [memWrite_eq_some, exists_and_left, exists_eq, and_true, admitsAll_iff]
  · obtain ⟨backed, rfl⟩ := memWrite_eq_some.1 ht
    refine ⟨?_, Memory.wf_writeList a _ hm, fun x hx => ?_⟩
    · exact memRead_eq_some.2 ⟨backed, (bytes_writeList hm a v).symm⟩
    · exact Memory.writeList_outside a _ hm (by simpa using hx)

end Sys2Proof.Machine
end

section
/-! When a command is stuck (spec/20_memory.md R51; spec/60_exceptions.md R208, R209). -/

namespace Sys2Proof.Machine

theorem completed_eq_fault {o : Option State} {f : Fault} : completed o = .fault f ↔ o = none := by
  cases f
  cases o <;> simp

/-- A check in front of a command: the command faults when the check passes and the rest faults. -/
theorem check_eq_fault {p : Prop} [Decidable p] {e : ErrCode} {s : State} {r : Result} {f : Fault} :
    (if p then raised e s else r) = .fault f ↔ ¬p ∧ r = .fault f := by
  by_cases hp : p <;> simp [hp]

/-- A stretch of addresses that is not all backed holds one that is not. -/
theorem admitsAll_eq_false {s : State} {a n : Nat} : s.admitsAll a n = false ↔ ∃ i < n, s.admits (a + i) = false := by
  simp [← Bool.not_eq_true, admitsAll_iff]

/-- A run of windows is stuck exactly when a byte it would touch is not backed. -/
theorem windows_eq_none {d : Direction} {n src dst : Nat} {s : State} :
    windows d n src dst s = none ↔ ∃ j < 8 * n, s.admits (src + j) = false ∨ s.admits (dst + j) = false := by
  have complete_iff : (∃ t, windows d n src dst s = some t) ↔
      s.admitsAll src (8 * n) = true ∧ s.admitsAll dst (8 * n) = true :=
    ⟨fun ⟨_, h⟩ => windows_backed h, fun ⟨hs, hd⟩ => windows_complete hs hd⟩
  calc windows d n src dst s = none
    _ ↔ ¬∃ t, windows d n src dst s = some t := by simp [Option.eq_none_iff_forall_ne_some]
    _ ↔ s.admitsAll src (8 * n) = false ∨ s.admitsAll dst (8 * n) = false := by
        rw [complete_iff, not_and_or, Bool.not_eq_true, Bool.not_eq_true]
    _ ↔ _ := by simp only [admitsAll_eq_false, and_or_left, exists_or]

/-- INIT's reads are stuck exactly when a key byte is not backed. -/
theorem initialise_eq_none {kaddr : Word} {table : SBox} {s : State} :
    initialise kaddr table s = none ↔ ∃ i < 32, s.admits (kaddr.toNat + i) = false := by
  rw [← admitsAll_eq_false, Option.eq_none_iff_forall_ne_some]
  simp [initialise_eq_some]

theorem singleBlock_eq_fault {d : Direction} {src slen dst dlen : Word} {s : State} {f : Fault} :
    singleBlock d src slen dst dlen s = .fault f ↔
      s.ready = true ∧ 8 ≤ slen.toNat ∧ 8 ≤ dlen.toNat ∧ src.toNat + 8 ≤ 4294967296 ∧ dst.toNat + 8 ≤ 4294967296 ∧
      ∃ j < 8, s.admits (src.toNat + j) = false ∨ s.admits (dst.toNat + j) = false := by
  simp only [singleBlock, check_eq_fault, completed_eq_fault, ← windows_one, windows_eq_none, Bool.not_eq_false,
    Nat.not_lt, inRange_iff, Nat.mul_one]

theorem manyBlocks_eq_fault {d : Direction} {src slen dst dlen : Word} {s : State} {f : Fault} :
    manyBlocks d src slen dst dlen s = .fault f ↔
      s.ready = true ∧ slen.toNat % 8 = 0 ∧ slen.toNat ≤ dlen.toNat ∧
      src.toNat + slen.toNat ≤ 4294967296 ∧ dst.toNat + slen.toNat ≤ 4294967296 ∧
      ∃ j < slen.toNat, s.admits (src.toNat + j) = false ∨ s.admits (dst.toNat + j) = false := by
  simp only [manyBlocks, check_eq_fault, completed_eq_fault, windows_eq_none, Bool.not_eq_false, Nat.not_lt,
    inRange_iff, ne_eq, Decidable.not_not]
  refine and_congr_right fun _ => and_congr_right fun whole => ?_
  rw [Nat.mul_div_cancel' (Nat.dvd_of_mod_eq_zero whole)]

theorem execInit_eq_fault {sel : Nibble} {kaddr klen : Word} {s : State} {f : Fault} :
    execInit sel kaddr klen s = .fault f ↔
      klen.toNat = 32 ∧ sel.toNat < 8 ∧ kaddr.toNat + 32 ≤ 4294967296 ∧
      ∃ i < 32, s.admits (kaddr.toNat + i) = false := by
  rw [execInit, check_eq_fault, ne_eq, Decidable.not_not]
  refine and_congr_right fun _ => ?_
  by_cases table : sel.toNat < 8
  · rw [dif_pos table, ← inRange_iff]
    cases inRange kaddr.toNat 32
    · simp
    · simp [table, completed_eq_fault, initialise_eq_none]
  · simp [table]

/-- Settles O29: a command faults when none of its checks answers and the operation behind them is stuck. -/
theorem stuckExactlyAtUnbackedBytes : Obligations.StuckExactlyAtUnbackedBytes := by
  intro s
  refine ⟨fun _ _ _ => execInit_eq_fault, fun _ _ _ _ i hi => ?_, fun _ _ _ _ i hi => ?_, fun i r => ?_⟩
  · obtain rfl | rfl : i = _ ∨ i = _ := by simpa using hi
    · exact singleBlock_eq_fault
    · exact singleBlock_eq_fault
  · obtain rfl | rfl : i = _ ∨ i = _ := by simpa using hi
    · exact manyBlocks_eq_fault
    · exact manyBlocks_eq_fault
  · obtain ⟨t, h⟩ | h := exec_not_refused i s <;> simp [h]

end Sys2Proof.Machine
end

section
/-! Buffer commands window by window (spec/20_memory.md R61; spec/43_block_codec.md R162, R163, R165). -/

namespace Sys2Proof.Machine

/-- A window carries the accepted packet and ERR along unread. -/
theorem window_finish (d : Direction) (src dst : Nat) (s : State) :
    window d src dst s.finish = (window d src dst s).map State.finish := by
  ext t
  simp only [Option.map_eq_some_iff, window_eq_some]
  constructor
  · rintro ⟨hs, hd, rfl⟩
    exact ⟨_, ⟨hs, hd, rfl⟩, rfl⟩
  · rintro ⟨_, ⟨hs, hd, rfl⟩, rfl⟩
    exact ⟨hs, hd, rfl⟩

/-- A run of windows carries the accepted packet and ERR along unread. -/
theorem windows_finish (d : Direction) (n src dst : Nat) (s : State) :
    windows d n src dst s.finish = (windows d n src dst s).map State.finish := by
  induction n generalizing src dst s with
  | zero => rfl
  | succ n ih =>
    rw [windows, windows, window_finish]
    cases window d src dst s with
    | none => rfl
    | some u => exact ih _ _ u

/-- Windows run after a command that completed end as they would have ended in that command. -/
theorem completed_windows_finish (d : Direction) (n src dst : Nat) (s : State) :
    completed (windows d n src dst s.finish) = completed (windows d n src dst s) := by
  rw [windows_finish]
  cases windows d n src dst s <;> rfl

/-- Past a first window that ends by the top of memory, the rest of the windows start 8 bytes on; where the address
wraps to 0, none is left. -/
theorem windows_next_word {n : Nat} {src dst : Word} (hs : src.toNat + 8 * (n + 1) ≤ 4294967296)
    (hd : dst.toNat + 8 * (n + 1) ≤ 4294967296) (d : Direction) (s : State) :
    windows d n (src + 8).toNat (dst + 8).toNat s = windows d n (src.toNat + 8) (dst.toNat + 8) s := by
  cases n with
  | zero => rfl
  | succ n =>
    have noWrap {a : Word} (h : a.toNat + 8 * (n + 1 + 1) ≤ 4294967296) : (a + 8).toNat = a.toNat + 8 := by bv_omega
    rw [noWrap hs, noWrap hd]

/-- A buffer command past its checks, with a first window: that window, then the buffer command on the rest. -/
theorem manyBlocks_unroll {s : State} {src slen dst dlen : Word} (hr : s.ready = true) (whole : slen.toNat % 8 = 0)
    (nonempty : 8 ≤ slen.toNat) (fits : slen.toNat ≤ dlen.toNat) (hs : src.toNat + slen.toNat ≤ 4294967296)
    (hd : dst.toNat + slen.toNat ≤ 4294967296) (d : Direction) :
    manyBlocks d src slen dst dlen s =
      match singleBlock d src 8 dst 8 s with
      | .next u => manyBlocks d (src + 8) (slen - 8) (dst + 8) (dlen - 8) u
      | stopped => stopped := by
  obtain ⟨n, hn⟩ : ∃ n, slen.toNat = 8 * (n + 1) := ⟨slen.toNat / 8 - 1, by omega⟩
  have restSlen : (slen - 8).toNat = 8 * n := by bv_omega
  have restDlen : (dlen - 8).toNat = dlen.toNat - 8 := by bv_omega
  rw [manyBlocks_checked hr whole fits (inRange_iff.2 hs) (inRange_iff.2 hd),
    singleBlock_checked hr (by simp) (by simp) (inRange_iff.2 (by omega)) (inRange_iff.2 (by omega)),
    show slen.toNat / 8 = n + 1 by omega, windows]
  cases hw : window d src.toNat dst.toNat s with
  | none => rfl
  | some u =>
    obtain ⟨-, -, hu⟩ := window_eq_some.1 hw
    have stillReady : u.finish.ready = true := by rw [hu]; exact hr
    have rest : manyBlocks d (src + 8) (slen - 8) (dst + 8) (dlen - 8) u.finish =
        completed (windows d n (src + 8).toNat (dst + 8).toNat u.finish) := by
      rw [manyBlocks_checked stillReady (by omega) (by omega) (inRange_iff.2 (by bv_omega))
        (inRange_iff.2 (by bv_omega)), restSlen, Nat.mul_div_cancel_left n (by decide)]
    show completed (windows d n (src.toNat + 8) (dst.toNat + 8) u) =
      manyBlocks d (src + 8) (slen - 8) (dst + 8) (dlen - 8) u.finish
    rw [rest, windows_next_word (by omega) (by omega), completed_windows_finish]

/-- Settles O23: both pairs of commands are the single window and the run of windows in one direction. -/
theorem bufferCommandUnrollsIntoWindows : Obligations.BufferCommandUnrollsIntoWindows := by
  intro s src slen dst dlen hr whole nonempty fits hs hd one many pair
  obtain ⟨rfl, rfl⟩ | ⟨rfl, rfl⟩ : (one = _ ∧ many = _) ∨ (one = _ ∧ many = _) := by simpa using pair
  · exact manyBlocks_unroll hr whole nonempty fits hs hd .encrypt
  · exact manyBlocks_unroll hr whole nonempty fits hs hd .decrypt

/-- The buffer command of a direction is `manyBlocks` in that direction. -/
theorem exec_many {many : Word → Word → Word → Word → Instr} {d : Direction}
    (h : (many, d) ∈ [(Instr.encn, Direction.encrypt), (Instr.decn, Direction.decrypt)])
    (src slen dst dlen : Word) (s : State) :
    exec (many src slen dst dlen) s = manyBlocks d src slen dst dlen s := by
  obtain ⟨rfl, rfl⟩ | ⟨rfl, rfl⟩ : (many = _ ∧ d = _) ∨ (many = _ ∧ d = _) := by simpa using h
  · rfl
  · rfl

/-- A buffer command that completes without an error has run its windows. -/
theorem manyBlocks_windows {d : Direction} {src slen dst dlen : Word} {s t : State}
    (h : manyBlocks d src slen dst dlen s = .next t) (ok : t.err = .ok) :
    ∃ u, windows d (slen.toNat / 8) src.toNat dst.toNat s = some u ∧ t = u.finish := by
  obtain ⟨e, he, rfl⟩ | ⟨-, -, -, -, -, ran⟩ := manyBlocks_next h
  · exact absurd ok he
  · exact ran

/-- A run of windows leaves a stretch of memory outside its destination as it was. -/
theorem windows_bytes_outside {d : Direction} {n src dst : Nat} {s t : State} (hm : Memory.wf s.mem = true)
    (h : windows d n src dst s = some t) {a k : Nat} (out : a + k ≤ dst ∨ dst + 8 * n ≤ a) :
    t.mem.bytes a k = s.mem.bytes a k := by
  obtain ⟨-, -, -, -, kept⟩ := windows_frame hm h
  exact bytes_congr fun i hi => kept _ (by omega)

/-- With the destination one window above the source, every window written is the transform of the 8 bytes below it. -/
theorem windows_chain {d : Direction} {n src : Nat} {s t : State} (hm : Memory.wf s.mem = true)
    (h : windows d n src (src + 8) s = some t) {k : Nat} (hk : k < n) :
    t.mem.bytes (src + 8 * (k + 1)) 8 = cryptBlock s.sbox s.wk d (t.mem.bytes (src + 8 * k) 8) := by
  induction n generalizing src s k with
  | zero => omega
  | succ n ih =>
    have source : t.mem.bytes src 8 = s.mem.bytes src 8 := windows_bytes_outside hm h (by omega)
    obtain ⟨u, hu, ht⟩ := windows_succ_eq_some.1 h
    obtain ⟨-, -, rfl⟩ := window_eq_some.1 hu
    have hm' : Memory.wf (windowMem d src (src + 8) s) = true := wf_windowMem hm d src (src + 8)
    cases k with
    | zero =>
      calc t.mem.bytes (src + 8) 8
        _ = (windowMem d src (src + 8) s).bytes (src + 8) 8 := windows_bytes_outside hm' ht (by omega)
        _ = cryptBlock s.sbox s.wk d (s.mem.bytes src 8) := bytes_writeList hm (src + 8) _
        _ = cryptBlock s.sbox s.wk d (t.mem.bytes src 8) := by rw [source]
    | succ k =>
      have next (j : Nat) : src + 8 * (j + 1) = src + 8 + 8 * j := by omega
      rw [next (k + 1), next k]
      exact ih hm' ht (by omega)

/-- Settles O22: the chain of windows, and its first link, whose 8 bytes below are the source's own. -/
theorem overlapByOneWindowChains : Obligations.OverlapByOneWindowChains := by
  intro s t src slen dst dlen hm many d pair h ok hdst hlen
  rw [exec_many pair] at h
  obtain ⟨u, hu, rfl⟩ := manyBlocks_windows h ok
  rw [hdst] at hu ⊢
  have link {k : Nat} (hk : k < slen.toNat / 8) :
      u.mem.bytes (src.toNat + 8 * (k + 1)) 8 = cryptBlock s.sbox s.wk d (u.mem.bytes (src.toNat + 8 * k) 8) :=
    windows_chain hm hu hk
  have source : u.mem.bytes src.toNat 8 = s.mem.bytes src.toNat 8 := windows_bytes_outside hm hu (by omega)
  refine ⟨?_, fun k hk => ?_⟩
  · rw [← source]
    exact link (k := 0) (by omega)
  · have above (j : Nat) : src.toNat + 8 + 8 * j = src.toNat + 8 * (j + 1) := by omega
    rw [above (k + 1), above k]
    exact link hk

end Sys2Proof.Machine
end

section
/-! Where a step changes memory (spec/20_memory.md R50, R57; spec/70_reset_and_hazards.md R231, R235). -/

namespace Sys2Proof.Machine

theorem inRegion_iff {r : Region} {a : Nat} : inRegion r a = true ↔ r.base ≤ a ∧ a < r.base + r.size := by
  simp [inRegion]

theorem inRegions_cons_eq_false {r : Region} {rs : List Region} {a : Nat} :
    inRegions (r :: rs) a = false ↔ (a < r.base ∨ r.base + r.size ≤ a) ∧ inRegions rs a = false := by
  rw [← Bool.not_eq_true, inRegions, List.any_cons, Bool.or_eq_true, not_or, inRegion_iff, inRegions,
    Bool.not_eq_true]
  exact and_congr_left fun _ => by omega

/-- Scrambling changes the bytes of its regions alone. -/
theorem read_scrambleRegions_outside (s : State) (rs : List Region) {m : Memory} (hm : Memory.wf m = true) {a : Nat}
    (out : inRegions rs a = false) : (scrambleRegions s rs m).read a = m.read a := by
  induction rs generalizing m with
  | nil => rfl
  | cons r rs ih =>
    obtain ⟨outFirst, outRest⟩ := inRegions_cons_eq_false.1 out
    rw [scrambleRegions, ih (wf_scramble s r.size r.base hm) outRest, read_scramble_outside s _ _ hm outFirst]

/-- A single-block command changes bytes of (DST, DLEN) alone. -/
theorem singleBlock_read_outside {d : Direction} {src slen dst dlen : Word} {s t : State}
    (hm : Memory.wf s.mem = true) (h : singleBlock d src slen dst dlen s = .next t) {a : Nat}
    (out : a < dst.toNat ∨ dst.toNat + dlen.toNat ≤ a) : t.mem.read a = s.mem.read a := by
  obtain ⟨e, -, rfl⟩ | ⟨-, -, fits, -, -, u, hu, rfl⟩ := singleBlock_next h
  · rfl
  · obtain ⟨-, -, -, -, kept⟩ := windows_frame hm ((windows_one ..).trans hu)
    exact kept a (by omega)

/-- A buffer command changes bytes of (DST, DLEN) alone. -/
theorem manyBlocks_read_outside {d : Direction} {src slen dst dlen : Word} {s t : State}
    (hm : Memory.wf s.mem = true) (h : manyBlocks d src slen dst dlen s = .next t) {a : Nat}
    (out : a < dst.toNat ∨ dst.toNat + dlen.toNat ≤ a) : t.mem.read a = s.mem.read a := by
  obtain ⟨e, -, rfl⟩ | ⟨-, -, fits, -, -, u, hu, rfl⟩ := manyBlocks_next h
  · rfl
  · obtain ⟨-, -, -, -, kept⟩ := windows_frame hm hu
    exact kept a (by omega)

/-- A command changes bytes of its destination regions alone. -/
theorem exec_read_outside {i : Instr} {s t : State} (hm : Memory.wf s.mem = true) (h : exec i s = .next t) {a : Nat}
    (out : inRegions (destinationOf i) a = false) : t.mem.read a = s.mem.read a := by
  cases i with
  | init =>
    obtain ⟨e, -, rfl⟩ | ⟨-, -, -, -, rfl⟩ := execInit_next h
    · rfl
    · rfl
  | encb => exact singleBlock_read_outside hm h (inRegions_cons_eq_false.1 out).1
  | decb => exact singleBlock_read_outside hm h (inRegions_cons_eq_false.1 out).1
  | encn => exact manyBlocks_read_outside hm h (inRegions_cons_eq_false.1 out).1
  | decn => exact manyBlocks_read_outside hm h (inRegions_cons_eq_false.1 out).1

/-- A reset changes bytes of the abandoned command's destination alone. -/
theorem resetEngine_read_outside {s : State} (hm : Memory.wf s.mem = true) {a : Nat}
    (out : inRegions s.guardedReads a = false) : s.resetEngine.mem.read a = s.mem.read a :=
  read_scrambleRegions_outside s s.guardedReads hm out

/-- Only block commands have a destination, and it is (DST, DLEN). -/
theorem inRegions_destinationOf {i : Instr} {a : Nat} (h : inRegions (destinationOf i) a = true) :
    ∃ src slen dst dlen : Word,
      i ∈ [Instr.encb src slen dst dlen, .decb src slen dst dlen, .encn src slen dst dlen, .decn src slen dst dlen] ∧
      dst.toNat ≤ a ∧ a < dst.toNat + dlen.toNat := by
  have only {r : Region} (h : inRegions [r] a = true) : r.base ≤ a ∧ a < r.base + r.size := by
    simpa [inRegions, inRegion_iff] using h
  cases i with
  | init => cases h
  | encb src slen dst dlen => exact ⟨src, slen, dst, dlen, by simp, only h⟩
  | decb src slen dst dlen => exact ⟨src, slen, dst, dlen, by simp, only h⟩
  | encn src slen dst dlen => exact ⟨src, slen, dst, dlen, by simp, only h⟩
  | decn src slen dst dlen => exact ⟨src, slen, dst, dlen, by simp, only h⟩

/-- The engine guards the destination of the command that the accepted packet decodes to. -/
theorem guardedReads_of_decode_ok {s : State} {p : Packet} {i : Instr} (hc : s.current = some p)
    (hd : decode p = .ok i) : s.guardedReads = destinationOf i := by
  simp only [State.guardedReads, hc, packetDestination, hd]

/-- A byte is guarded against reads only while a block command's packet is pending, and lies in its (DST, DLEN). -/
theorem inRegions_guardedReads {s : State} {a : Nat} (h : inRegions s.guardedReads a = true) :
    ∃ p src slen dst dlen, s.current = some p ∧
      (∃ i ∈ [Instr.encb src slen dst dlen, .decb src slen dst dlen, .encn src slen dst dlen,
        .decn src slen dst dlen], decode p = .ok i) ∧
      dst.toNat ≤ a ∧ a < dst.toNat + dlen.toNat := by
  cases hc : s.current with
  | none => rw [State.guardedReads_idle hc] at h; cases h
  | some p =>
    cases hd : decode p with
    | error w => simp [State.guardedReads, hc, packetDestination, hd, inRegions] at h
    | ok i =>
      rw [guardedReads_of_decode_ok hc hd] at h
      obtain ⟨src, slen, dst, dlen, block, lo, hi⟩ := inRegions_destinationOf h
      exact ⟨p, src, slen, dst, dlen, rfl, ⟨i, block, hd⟩, lo, hi⟩

/-- Settles O40: of the ways a step can end, only a host's write, a command and a reset write memory; the last two in
the guarded destination alone. -/
theorem memoryChangesOnlyInDestinations : Obligations.MemoryChangesOnlyInDestinations := by
  intro s t a hm h changed
  cases step_next h with
  | idle _ _ ht => subst ht; exact absurd rfl changed
  | command p i _ hc hd ht =>
    refine .inr (inRegions_guardedReads ?_)
    by_contra out
    rw [guardedReads_of_decode_ok hc hd, Bool.not_eq_true] at out
    exact changed (exec_read_outside (s := s.withTurns s.turns.tail) hm ht out)
  | illegal _ _ _ _ _ ht => subst ht; exact absurd rfl changed
  | accepted _ _ _ ht => subst ht; exact absurd rfl changed
  | written w b hh _ _ ht =>
    subst ht
    refine .inl ⟨w, b, hh, ?_⟩
    by_contra other
    exact changed ((Memory.read_write w.toNat b hm a).trans (if_neg other))
  | read _ _ _ _ ht => subst ht; exact absurd rfl changed
  | reset _ ht =>
    subst ht
    refine .inr (inRegions_guardedReads ?_)
    by_contra out
    exact changed (resetEngine_read_outside (s := s.withTurns s.turns.tail) hm (Bool.eq_false_iff.2 out))

end Sys2Proof.Machine
end

section
/-! What the decoder answers, by the fields of the command word (spec/30_encoding.md R71, R77, R81). -/

namespace Sys2Proof

theorem Packet.op_toNat (p : Packet) : p.op.toNat = p.w0.toNat % 16 := by
  rw [Packet.op, BitVec.extractLsb'_toNat]; rfl

theorem Packet.sel_toNat (p : Packet) : p.sel.toNat = p.w0.toNat / 16 % 16 := by
  rw [Packet.sel, BitVec.extractLsb'_toNat, Nat.shiftRight_eq_div_pow]

theorem Packet.rsv_toNat (p : Packet) : p.rsv.toNat = p.w0.toNat / 256 := by
  have := p.w0.isLt
  rw [Packet.rsv, BitVec.extractLsb'_toNat, Nat.shiftRight_eq_div_pow]
  omega

/-- The command word is the number of its fields (R71). -/
theorem Packet.w0_toNat (p : Packet) : p.w0.toNat = 256 * p.rsv.toNat + 16 * p.sel.toNat + p.op.toNat := by
  rw [op_toNat, sel_toNat, rsv_toNat]
  omega

/-- The three cases of R77, in numbers. -/
theorem Packet.wf_eq_false_iff (p : Packet) :
    p.wf = false ↔ (p.op.toNat = 0 ∨ 6 ≤ p.op.toNat) ∨ p.rsv.toNat ≠ 0 ∨
      (2 ≤ p.op.toNat ∧ p.op.toNat ≤ 5 ∧ p.sel.toNat ≠ 0) := by
  simp only [Packet.wf, opcodeDefined, reservedZero, selectAllowed, Bool.and_eq_false_iff, Bool.not_eq_false',
    Bool.and_eq_true, decide_eq_true_eq, decide_eq_false_iff_not, ne_eq, ← BitVec.toNat_inj, BitVec.ofNat_eq_ofNat,
    BitVec.toNat_ofNat]
  omega

/-- The opcodes of the four block commands (R72). -/
def blockOpcodes : List (Nibble × (Word → Word → Word → Word → Instr)) :=
  [(2, .encb), (3, .decb), (4, .encn), (5, .decn)]

theorem mem_blockOpcodes {o : Nibble} {mk : Word → Word → Word → Word → Instr} : (o, mk) ∈ blockOpcodes ↔
    (o = 2 ∧ mk = .encb) ∨ (o = 3 ∧ mk = .decb) ∨ (o = 4 ∧ mk = .encn) ∨ (o = 5 ∧ mk = .decn) := by
  simp [blockOpcodes]

/-- What the decoder can answer (R81). -/
inductive Decoding (p : Packet) : Except Illegal Instr → Prop where
  | init (hr : p.rsv = 0) (ho : p.op = 1) : Decoding p (.ok (.init p.sel p.w1 p.w2))
  | block (mk : Word → Word → Word → Word → Instr) (hm : (p.op, mk) ∈ blockOpcodes) (hr : p.rsv = 0)
      (hs : p.sel = 0) : Decoding p (.ok (mk p.w1 p.w2 p.w3 p.w4))
  | illegal (why : Illegal) (h : p.wf = false) : Decoding p (.error why)

/-- A block opcode is one of 2 to 5. -/
theorem toNat_of_mem_blockOpcodes {o : Nibble} {mk : Word → Word → Word → Word → Instr}
    (h : (o, mk) ∈ blockOpcodes) : 2 ≤ o.toNat ∧ o.toNat ≤ 5 := by
  obtain ⟨rfl, -⟩ | ⟨rfl, -⟩ | ⟨rfl, -⟩ | ⟨rfl, -⟩ := mem_blockOpcodes.1 h <;> decide

theorem decodeBlock_decoding {p : Packet} {mk : Word → Word → Word → Word → Instr}
    (hr : p.rsv = 0) (hm : (p.op, mk) ∈ blockOpcodes) : Decoding p (decodeBlock p mk) := by
  unfold decodeBlock
  split
  case isTrue hs => exact .block mk hm hr hs
  case isFalse hs =>
    obtain ⟨low, high⟩ := toNat_of_mem_blockOpcodes hm
    exact .illegal _ (p.wf_eq_false_iff.2 (.inr (.inr ⟨low, high, fun h => hs (BitVec.eq_of_toNat_eq h)⟩)))

/-- Everything the decoder can answer. -/
theorem decode_decoding (p : Packet) : Decoding p (decode p) := by
  by_cases hr : p.rsv = 0
  case neg =>
    rw [decode, if_pos hr]
    exact .illegal _ (p.wf_eq_false_iff.2 (.inr (.inl fun h => hr (BitVec.eq_of_toNat_eq h))))
  rw [decode, if_neg (not_not_intro hr)]
  split
  case isTrue ho => exact .init hr ho
  split
  case isTrue ho => exact decodeBlock_decoding hr (by simp [ho, blockOpcodes])
  split
  case isTrue ho => exact decodeBlock_decoding hr (by simp [ho, blockOpcodes])
  split
  case isTrue ho => exact decodeBlock_decoding hr (by simp [ho, blockOpcodes])
  split
  case isTrue ho => exact decodeBlock_decoding hr (by simp [ho, blockOpcodes])
  exact .illegal _ (p.wf_eq_false_iff.2 (.inl (by bv_omega)))

/-- The illegal packets are those that are not well formed (R77). -/
theorem decode_error_iff {p : Packet} : (∃ why, decode p = .error why) ↔ p.wf = false := by
  have answer := decode_decoding p
  generalize decode p = r at answer
  cases answer with
  | init hr ho =>
    have legal : ¬p.wf = false := by rw [p.wf_eq_false_iff]; bv_omega
    simp [legal]
  | block mk hm hr hs =>
    obtain ⟨low, high⟩ := toNat_of_mem_blockOpcodes hm
    have legal : ¬p.wf = false := by rw [p.wf_eq_false_iff]; bv_omega
    simp [legal]
  | illegal why h => simp [h]

end Sys2Proof
end

section
/-! Decoding and encoding are inverse (spec/30_encoding.md R72, R80, R81, R83). -/

namespace Sys2Proof

/-- The decoder reads an INIT off OP, RSV, SEL and two operand words; the two others play no part (R78, R80). -/
theorem decode_eq_init_iff {p : Packet} {sel : Nibble} {kaddr klen : Word} :
    decode p = .ok (.init sel kaddr klen) ↔
      p.rsv = 0 ∧ p.op = 1 ∧ p.sel = sel ∧ p.w1 = kaddr ∧ p.w2 = klen := by
  constructor
  · intro h
    have answer := decode_decoding p
    rw [h] at answer
    generalize hi : Instr.init sel kaddr klen = i at answer
    cases answer with
    | init hr ho => cases hi; exact ⟨hr, ho, rfl, rfl, rfl⟩
    | block mk hm =>
      obtain ⟨-, rfl⟩ | ⟨-, rfl⟩ | ⟨-, rfl⟩ | ⟨-, rfl⟩ := mem_blockOpcodes.1 hm <;> cases hi
  · rintro ⟨hr, ho, rfl, rfl, rfl⟩
    simp [decode, hr, ho]

/-- A block opcode alone in the command word decodes to its command (R75, R79). -/
theorem decode_block {o : Nibble} {mk : Word → Word → Word → Word → Instr} (h : (o, mk) ∈ blockOpcodes)
    (src slen dst dlen : Word) : decode ⟨o.setWidth 32, src, slen, dst, dlen⟩ = .ok (mk src slen dst dlen) := by
  obtain ⟨rfl, rfl⟩ | ⟨rfl, rfl⟩ | ⟨rfl, rfl⟩ | ⟨rfl, rfl⟩ := mem_blockOpcodes.1 h <;>
    simp [decode, decodeBlock, Packet.rsv, Packet.op, Packet.sel]

/-- Every command decodes back from its packet. -/
theorem decode_encode (i : Instr) : decode (encode i) = .ok i := by
  cases i with
  | init sel kaddr klen =>
    have fields : ∀ x : Nibble, (encode (.init x 0 0)).rsv = 0 ∧ (encode (.init x 0 0)).op = 1 ∧
        (encode (.init x 0 0)).sel = x := by decide
    obtain ⟨hr, ho, hs⟩ := fields sel
    exact decode_eq_init_iff.2 ⟨hr, ho, hs, rfl, rfl⟩
  | encb => exact decode_block (o := 2) (by simp [blockOpcodes]) ..
  | decb => exact decode_block (o := 3) (by simp [blockOpcodes]) ..
  | encn => exact decode_block (o := 4) (by simp [blockOpcodes]) ..
  | decn => exact decode_block (o := 5) (by simp [blockOpcodes]) ..

/-- The command word of an INIT, in numbers (R83). -/
theorem encode_init_w0_toNat (sel : Nibble) (kaddr klen : Word) :
    (encode (.init sel kaddr klen)).w0.toNat = 16 * sel.toNat + 1 := by
  have word : ∀ x : Nibble, (encode (.init x 0 0)).w0.toNat = 16 * x.toNat + 1 := by decide
  exact word sel

/-- The packet of a block command: the opcode, then the four operands (R72, R83). -/
theorem encode_block {o : Nibble} {mk : Word → Word → Word → Word → Instr} (h : (o, mk) ∈ blockOpcodes)
    (src slen dst dlen : Word) : encode (mk src slen dst dlen) = ⟨o.setWidth 32, src, slen, dst, dlen⟩ := by
  obtain ⟨rfl, rfl⟩ | ⟨rfl, rfl⟩ | ⟨rfl, rfl⟩ | ⟨rfl, rfl⟩ := mem_blockOpcodes.1 h
  · rfl
  · rfl
  · rfl
  · rfl

/-- A legal packet is the packet of its command, but for the operand words an INIT ignores (R80). -/
theorem encode_of_decode_ok {p : Packet} {i : Instr} (h : decode p = .ok i) :
    encode i = p ∨ (∃ sel kaddr klen, i = .init sel kaddr klen) ∧ encode i = { p with w3 := 0, w4 := 0 } := by
  have answer := decode_decoding p
  rw [h] at answer
  cases answer with
  | init hr ho =>
    have word : (encode (.init p.sel p.w1 p.w2)).w0 = p.w0 := BitVec.eq_of_toNat_eq <| by
      have fields := p.w0_toNat
      rw [encode_init_w0_toNat]
      bv_omega
    exact .inr ⟨⟨_, _, _, rfl⟩, by rw [← word]; rfl⟩
  | block mk hm hr hs =>
    have word : p.op.setWidth 32 = p.w0 := BitVec.eq_of_toNat_eq <| by
      have fields := p.w0_toNat
      bv_omega
    exact .inl (by rw [encode_block hm, word])

/-- Settles O2: `decode_encode`, and a legal packet read as the packet of its command. -/
theorem decodeAndEncodeAgree : Obligations.DecodeAndEncodeAgree := by
  refine ⟨decode_encode, fun p i h => ?_⟩
  obtain same | ⟨⟨sel, kaddr, klen, hi⟩, same⟩ := encode_of_decode_ok h
  · rw [same]
    exact ⟨rfl, rfl, rfl, fun _ => ⟨rfl, rfl⟩⟩
  · rw [same]
    exact ⟨rfl, rfl, rfl, fun notInit => absurd hi (notInit sel kaddr klen)⟩

/-- Settles O1: each word, legal or illegal, by computation. -/
theorem specWordsDecode : Obligations.SpecWordsDecode := by
  refine ⟨rfl, rfl, rfl, rfl, rfl, rfl, fun w hw => ?_⟩
  fin_cases hw <;> exact ⟨_, rfl⟩

/-- Settles O4: what makes a packet an INIT says nothing of W3 and W4. -/
theorem unusedInitWordsHaveNoEffect : Obligations.UnusedInitWordsHaveNoEffect := by
  refine ⟨fun _ _ _ _ _ _ _ _ _ _ h => ?_, fun _ _ _ => ⟨_, rfl, rfl, rfl⟩⟩
  obtain ⟨hr, ho, hs, ha, hk⟩ := decode_eq_init_iff.1 h
  exact decode_eq_init_iff.2 ⟨hr, ho, hs, ha, hk⟩

end Sys2Proof
end

section
/-! The engine on an illegal packet (spec/30_encoding.md R77; spec/60_exceptions.md R206, R210). -/

namespace Sys2Proof.Machine

/-- The engine completes an illegal packet with IllegalCommand. -/
theorem engineTurn_of_decode_error {s : State} {p : Packet} {why : Illegal} (hc : s.current = some p)
    (hd : decode p = .error why) : engineTurn s = .next (s.raise .illegalCommand) := by
  simp only [engineTurn, hc, hd, raised]

/-- Settles O3: the ill-formed packets, field by field, and the engine's turn on one. -/
theorem illegalPacketsRaiseIllegalCommand : Obligations.IllegalPacketsRaiseIllegalCommand := by
  intro p s hc
  refine ⟨?_, fun ⟨why, hd⟩ => ⟨fun hs => ?_, fun ts hs => ?_⟩⟩
  · rw [decode_error_iff, Packet.wf_eq_false_iff, p.op_toNat, p.rsv_toNat, p.sel_toNat]
  · rw [step_of_turns_nil hs]
    exact engineTurn_of_decode_error hc hd
  · rw [step_of_turns_cons hs]
    exact engineTurn_of_decode_error hc hd

end Sys2Proof.Machine
end

section
/-! Lines of assembler (spec/30_encoding.md R83). -/

namespace Sys2Proof.Assembler

/-- The lines of the four block commands, each with the command it stands for (R83). -/
def blockLines : List ((Nat → Nat → Nat → Nat → Line) × (Word → Word → Word → Word → Instr)) :=
  [(.encb, .encb), (.decb, .decb), (.encn, .encn), (.decn, .decn)]

/-- A block command's line assembles to the packet of the command. -/
theorem assemble_block {line : Nat → Nat → Nat → Nat → Line} {mk : Word → Word → Word → Word → Instr}
    (h : (line, mk) ∈ blockLines) (a b c d : Nat) : assemble (line a b c d) =
      some (encode (mk (BitVec.ofNat 32 a) (BitVec.ofNat 32 b) (BitVec.ofNat 32 c) (BitVec.ofNat 32 d))) := by
  simp only [blockLines, List.mem_cons, Prod.mk.injEq, List.not_mem_nil, or_false] at h
  obtain ⟨rfl, rfl⟩ | ⟨rfl, rfl⟩ | ⟨rfl, rfl⟩ | ⟨rfl, rfl⟩ := h
  · rfl
  · rfl
  · rfl
  · rfl

/-- An INIT line whose select code fits SEL assembles to the packet of the command. -/
theorem assemble_init {sel : Select} (h : sel.code < 16) (a k : Nat) : assemble (.init sel a k) =
    some (encode (.init (BitVec.ofNat 4 sel.code) (BitVec.ofNat 32 a) (BitVec.ofNat 32 k))) := by
  have word : ∀ n < 16, BitVec.ofNat 32 (n <<< 4 ||| 1) = (encode (.init (BitVec.ofNat 4 n) 0 0)).w0 := by decide
  exact congrArg (fun w => some (Packet.mk w (BitVec.ofNat 32 a) (BitVec.ofNat 32 k) 0 0)) (word sel.code h)

theorem Select.code_lt {sel : Select} (h : sel.wf = true) : sel.code < 16 := by
  cases sel with
  | name t => cases t <;> decide
  | number n => exact Nat.lt_succ_of_le (of_decide_eq_true h)

/-- Every line assembles: an expansion is never a pseudo-instruction. -/
theorem assemble_eq_some (l : Line) : ∃ p, assemble l = some p := by
  cases l <;> exact ⟨_, rfl⟩

/-- Settles O5: a command's line assembles to the packet of the command, which decodes back. -/
theorem assemblerLinesMeanTheirCommands : Obligations.AssemblerLinesMeanTheirCommands := by
  refine ⟨fun l _ => assemble_eq_some l, fun sel a k h => ?_, fun a b c d h line mk hl => ?_,
    fun _ _ => rfl, fun _ _ => rfl, fun _ _ => rfl, fun _ _ => rfl, fun _ _ => rfl⟩
  · simp only [Line.wf, fits32, Bool.and_eq_true, decide_eq_true_eq] at h
    obtain ⟨⟨hsel, ha⟩, hk⟩ := h
    refine ⟨_, assemble_init (Select.code_lt hsel) a k, _, _, _, decode_encode _, ?_⟩
    exact ⟨Nat.mod_eq_of_lt (Select.code_lt hsel), Nat.mod_eq_of_lt ha, Nat.mod_eq_of_lt hk⟩
  · simp only [Line.wf, fits32, Bool.and_eq_true, decide_eq_true_eq] at h
    obtain ⟨⟨⟨ha, hb⟩, hc⟩, hd⟩ := h
    refine ⟨_, assemble_block hl a b c d, _, _, _, _, decode_encode _, ?_⟩
    exact ⟨Nat.mod_eq_of_lt ha, Nat.mod_eq_of_lt hb, Nat.mod_eq_of_lt hc, Nat.mod_eq_of_lt hd⟩

/-- A block command's line with the numbers of words assembles to the packet with those words. -/
theorem assemble_block_toNat {line : Nat → Nat → Nat → Nat → Line} {mk : Word → Word → Word → Word → Instr}
    (h : (line, mk) ∈ blockLines) (a b c d : Word) :
    assemble (line a.toNat b.toNat c.toNat d.toNat) = some (encode (mk a b c d)) := by
  simp only [assemble_block h, BitVec.ofNat_toNat, BitVec.setWidth_eq]

/-- A legal packet's line assembles to the packet of its command. -/
theorem assemble_disassemble_of_ok {p : Packet} {i : Instr} (h : decode p = .ok i) :
    assemble (disassemble p) = some (encode i) := by
  cases i with
  | init sel kaddr klen =>
    simp only [disassemble, h]
    rw [assemble_init (sel := .number sel.toNat) sel.isLt]
    simp [Select.code]
  | encb => simp only [disassemble, h]; exact assemble_block_toNat (by simp [blockLines]) ..
  | decb => simp only [disassemble, h]; exact assemble_block_toNat (by simp [blockLines]) ..
  | encn => simp only [disassemble, h]; exact assemble_block_toNat (by simp [blockLines]) ..
  | decn => simp only [disassemble, h]; exact assemble_block_toNat (by simp [blockLines]) ..

/-- An illegal packet's line assembles to the packet itself. -/
theorem assemble_disassemble_of_error {p : Packet} {why : Illegal} (h : decode p = .error why) :
    assemble (disassemble p) = some p := by
  simp [disassemble, h, assemble, expand, emit]

/-- Settles O6: a legal packet comes back as the packet of its command, an illegal one as itself. -/
theorem disassemblyReassembles : Obligations.DisassemblyReassembles := by
  intro p
  cases h : decode p with
  | ok i => exact ⟨encode i, assemble_disassemble_of_ok h, decode_encode i, nofun⟩
  | error why => exact ⟨p, assemble_disassemble_of_error h, h, fun _ => rfl⟩

end Sys2Proof.Assembler
end

section
/-! INIT past its checks: the key and the table it loads (spec/40_key_schedule.md R102 to R105). -/

namespace Sys2Proof.Machine

/-- Past its checks and with its key backed, INIT loads the key and the selected table, and completes. -/
theorem execInit_checked {sel : Nibble} {kaddr klen : Word} {s : State} (hs : sel.toNat < 8) (hk : klen.toNat = 32)
    (hr : kaddr.toNat + 32 ≤ 4294967296) (backed : ∀ i < 32, s.admits (kaddr.toNat + i) = true) :
    execInit sel kaddr klen s =
      .next (s.loadKey (keyDerive (s.mem.bytes kaddr.toNat 32)) s.rom[sel.toNat]).finish := by
  have loads : initialise kaddr s.rom[sel.toNat] s =
      some (s.loadKey (keyDerive (s.mem.bytes kaddr.toNat 32)) s.rom[sel.toNat]) :=
    initialise_eq_some.2 ⟨admitsAll_iff.2 backed, rfl⟩
  rw [execInit, if_neg (not_not_intro hk), dif_pos hs, if_pos (inRange_iff.2 hr), loads, completed_some]

/-- Settles O17: the loaded state, written out field by field. -/
theorem initLoadsKeyAndTable : Obligations.InitLoadsKeyAndTable := fun _ _ _ hs hr backed =>
  execInit_checked hs rfl hr backed

/-- STATUS is 2 when the engine is idle with a key and shows no error. -/
theorem status_eq_two {s : State} (hc : s.current = none) (hr : s.ready = true) (he : s.err = .ok) :
    s.status = 0x00000002 := by
  rw [State.status, State.busy, hc, hr, he]
  rfl

/-- A sub-key made from memory is the number of its four bytes there, the first one lowest (R53, R100). -/
theorem keyDerive_bytes_toNat (m : Memory) (a : Nat) {i : Nat} (hi : i < 8) :
    (keyDerive (m.bytes a 32))[i].toNat =
      (m.read (a + 4 * i)).toNat + 256 * (m.read (a + (4 * i + 1))).toNat +
        65536 * (m.read (a + (4 * i + 2))).toNat + 16777216 * (m.read (a + (4 * i + 3))).toNat := by
  simp only [keyScheduleIsLittleEndian.1 _ i hi, bytes_getElem]

/-- Settles O43: STATUS, the sub-keys and the table of the state `execInit_checked` gives. -/
theorem initCompletesWhenItsChecksPass : Obligations.InitCompletesWhenItsChecksPass := by
  intro s sel kaddr klen hs hk hr backed key
  exact ⟨_, execInit_checked hs hk hr backed, status_eq_two rfl rfl rfl,
    fun i hi => keyDerive_bytes_toNat s.mem kaddr.toNat hi, fun _ _ => rfl, rfl⟩

end Sys2Proof.Machine
end

section
/-! A command that completes with an error (spec/60_exceptions.md R200, R210). -/

namespace Sys2Proof.Machine

/-- Settles O27: of the three ways a command completes, only an error leaves ERR other than OK. -/
theorem errorsChangeStatusAlone : Obligations.ErrorsChangeStatusAlone := by
  intro i s t h failed
  cases exec_next h with
  | error e _ ht => subst ht; rfl
  | keyLoaded _ _ ht => subst ht; exact absurd rfl failed
  | transformed _ _ _ _ _ _ _ ht => subst ht; exact absurd rfl failed

end Sys2Proof.Machine
end

section
/-! The round function's substitution and rotation (spec/41_round_function.md R120 to R123). -/

namespace Sys2Proof.Machine

/-- A word's nibbles are or-ed one by one. -/
theorem nibble_or (a b : Word) (i : Nat) : nibble (a ||| b) i = nibble a i ||| nibble b i :=
  BitVec.extractLsb'_or

/-- An entry placed in lane `i` shows in that lane and in no other (R121). -/
theorem nibble_placed (y : Nibble) (i j : Fin 8) :
    nibble (y.setWidth 32 <<< (4 * i.val)) j = if j = i then y else 0 := by
  ext k hk
  rw [nibble, BitVec.getElem_extractLsb', BitVec.getLsbD_shiftLeft, BitVec.getLsbD_setWidth]
  obtain same | below | above : j.val = i.val ∨ j.val < i.val ∨ i.val < j.val := by omega
  · rw [if_pos (Fin.ext same), same, Nat.add_sub_cancel_left, BitVec.getLsbD_eq_getElem hk]
    simp [show 4 * i.val + k < 32 by omega, show k < 32 by omega]
  · rw [if_neg (by omega)]
    simp [show 4 * j.val + k < 4 * i.val by omega]
  · rw [if_neg (by omega), BitVec.getLsbD_of_ge y _ (by omega)]
    simp

/-- Placing the entries `f` of the lanes in `l` leaves in nibble `j` what was there, or-ed with lane `j`'s entry. -/
theorem nibble_foldl_placed (f : Fin 8 → Nibble) (l : List (Fin 8)) (om : Word) (j : Fin 8) :
    nibble (l.foldl (fun om i => om ||| (f i).setWidth 32 <<< (4 * i.val)) om) j =
      nibble om j ||| if j ∈ l then f j else 0 := by
  induction l generalizing om with
  | nil => simp
  | cons i l ih =>
    rw [List.foldl_cons, ih, nibble_or, nibble_placed, BitVec.or_assoc]
    obtain rfl | other := eq_or_ne j i
    · by_cases hj : j ∈ l <;> simp [hj]
    · simp [other]

/-- The substitution leaves out no lane. -/
theorem mem_lanes (i : Fin 8) : i ∈ lanes := by
  revert i
  decide

/-- Lane `i` of the substituted word is the entry sub-table `i` has for lane `i` of the word (R121). -/
theorem nibble_subst (t : SBox) (cm : Word) (i : Fin 8) :
    nibble (subst t cm) i = sboxEntry t i (nibble cm i) := by
  have empty : nibble 0 i = 0 := BitVec.extractLsb'_zero
  rw [subst, nibble_foldl_placed (fun i => sboxEntry t i (nibble cm i)), empty, if_pos (mem_lanes i)]
  exact BitVec.zero_or

/-- Settles O10: `nibble_subst`, at the lane of number `i`. -/
theorem substitutionWorksLaneByLane : Obligations.SubstitutionWorksLaneByLane :=
  fun t cm i hi => nibble_subst t cm ⟨i, hi⟩

/-- The rotation of R8 is the library's, for every count below the width. -/
theorem rotl32_eq_rotateLeft (x : Word) {n : Nat} (hn : n < 32) : rotl32 x n = x.rotateLeft n := by
  rw [rotl32, BitVec.rotateLeft_def, Nat.mod_eq_of_lt hn]

/-- A rotation by `n` moves bit `j` to bit `(j + n) mod 32` (R122). -/
theorem rotl32_getLsbD (x : Word) {n j : Nat} (hn : n < 32) (hj : j < 32) :
    (rotl32 x n).getLsbD ((j + n) % 32) = x.getLsbD j := by
  rw [rotl32_eq_rotateLeft x hn, BitVec.getLsbD_rotateLeft, Nat.mod_eq_of_lt hn]
  obtain stays | wraps := Nat.lt_or_ge (j + n) 32
  · rw [Nat.mod_eq_of_lt stays]
    simp [stays]
  · have target : (j + n) % 32 = j + n - 32 := by omega
    have source : 32 - n + (j + n - 32) = j := by omega
    simp [target, source, show j + n - 32 < n by omega]

/-- Settles O11: the count 11 of `rotl32_getLsbD`; the formula is `rotl32` itself, and the corner cases compute. -/
theorem rotationMovesEveryBit : Obligations.RotationMovesEveryBit :=
  ⟨fun om _ hj => rotl32_getLsbD om (by decide) hj, fun _ => rfl, by decide, by decide, by decide, by decide⟩

/-- The add wraps: a carry out of bit 31 is lost (R120). -/
theorem modAdd_toNat (n1 subkey : Word) : (modAdd n1 subkey).toNat = (subkey.toNat + n1.toNat) % 4294967296 :=
  BitVec.toNat_add subkey n1

/-- A word is the word of its eight nibbles. -/
theorem eq_of_nibble_eq {a b : Word} (h : ∀ i : Fin 8, nibble a i = nibble b i) : a = b := by
  apply BitVec.eq_of_getLsbD_eq
  intro k hk
  have bit (w : Word) : (nibble w (k / 4)).getLsbD (k % 4) = w.getLsbD k := by
    simp [nibble, Nat.mod_lt, Nat.div_add_mod]
  rw [← bit a, ← bit b, h ⟨k / 4, by omega⟩]

/-- The table whose every entry is the nibble it substitutes leaves a word as it is (R123's example). -/
theorem subst_identity (cm : Word) : subst (Vector.ofFn fun j => BitVec.ofNat 4 j.val) cm = cm := by
  refine eq_of_nibble_eq fun i => ?_
  rw [nibble_subst, sboxEntry, Vector.getElem_ofFn]
  have low : (16 * i.val + (nibble cm i).toNat) % 2 ^ 4 = (nibble cm i).toNat := by omega
  exact BitVec.eq_of_toNat_eq ((BitVec.toNat_ofNat ..).trans low)

/-- Settles O9: in the example the identity table leaves the sum, which is then rotated. -/
theorem roundFunctionSteps : Obligations.RoundFunctionSteps := by
  refine ⟨modAdd_toNat, fun _ _ _ => rfl, ?_⟩
  rw [roundF, subst_identity]
  decide

end Sys2Proof.Machine
end

section
/-! The block transform and its inverse (spec/42_feistel_engine.md R140 to R148). -/

namespace Sys2Proof

/-- The direction that undoes this one (R148). -/
def Direction.inverse : Direction → Direction
  | .encrypt => .decrypt
  | .decrypt => .encrypt

end Sys2Proof

namespace Sys2Proof.Machine

/-- Settles O12: the passes written out, and the reversal computed on them. -/
theorem keyOrdersAreReverses : Obligations.KeyOrdersAreReverses := ⟨rfl, rfl, rfl⟩

/-- With the final round's index 0, each order is that of the other direction read backwards (R143). -/
theorem keyOrder_inverse (d : Direction) : keyOrder d.inverse ++ [0] = (keyOrder d ++ [0]).reverse := by
  obtain ⟨-, -, reversed⟩ := keyOrdersAreReverses
  cases d with
  | encrypt => exact reversed
  | decrypt => exact List.reverse_eq_iff.1 reversed.symm

/-- The swapping round (R141) on the halves alone, without the round counter. -/
def roundPair (t : SBox) (wk : WorkingKey) (p : Word × Word) (j : Fin 8) : Word × Word :=
  (p.2 ^^^ roundF t p.1 wk[j], p.1)

/-- The engine's swapping rounds act on its halves as `roundPair` does. -/
theorem foldl_swapRound_pair (t : SBox) (wk : WorkingKey) (js : List (Fin 8)) (h : Halves) :
    (js.foldl (swapRound t wk) h).pair = js.foldl (roundPair t wk) h.pair :=
  (List.foldl_hom Halves.pair fun _ _ => rfl).symm

/-- The 32 rounds are swapping rounds all, the last one (R144) with its swap undone. -/
theorem runRounds_pair (t : SBox) (wk : WorkingKey) (d : Direction) (h : Halves) :
    (runRounds t wk d h).pair = ((keyOrder d ++ [0]).foldl (roundPair t wk) h.pair).swap := by
  rw [List.foldl_concat, ← foldl_swapRound_pair]
  rfl

/-- On exchanged halves, a swapping round undoes itself: the half it was fed is still there to compute the same `F`. -/
theorem roundPair_swap_roundPair (t : SBox) (wk : WorkingKey) (p : Word × Word) (j : Fin 8) :
    roundPair t wk (roundPair t wk p j).swap j = p.swap := by
  simp [roundPair, Prod.swap]

/-- On exchanged halves, the rounds in reverse order undo the rounds. -/
theorem foldl_roundPair_reverse (t : SBox) (wk : WorkingKey) (js : List (Fin 8)) (p : Word × Word) :
    js.reverse.foldl (roundPair t wk) (js.foldl (roundPair t wk) p).swap = p.swap := by
  induction js generalizing p with
  | nil => rfl
  | cons j js ih =>
    rw [List.reverse_cons, List.foldl_concat, List.foldl_cons, ih, roundPair_swap_roundPair]

/-- The rounds of one direction, then those of the other, give the halves back. -/
theorem runRounds_inverse (t : SBox) (wk : WorkingKey) (d : Direction) (h : Halves) :
    (runRounds t wk d.inverse (runRounds t wk d h)).pair = h.pair := by
  rw [runRounds_pair, runRounds_pair, keyOrder_inverse, foldl_roundPair_reverse, Prod.swap_swap]

/-- A transform of packed halves packs what the rounds make of them: the round counter does not matter. -/
theorem cryptBlock_pack (t : SBox) (wk : WorkingKey) (d : Direction) (h : Halves) :
    cryptBlock t wk d (pack h) = pack (runRounds t wk d h) :=
  pack_pair (by rw [runRounds_pair, unpack_pack, runRounds_pair])

/-- The transform of the other direction gives the block back (R148). -/
theorem cryptBlock_inverse (t : SBox) (wk : WorkingKey) (d : Direction) (b : Block) :
    cryptBlock t wk d.inverse (cryptBlock t wk d b) = b :=
  calc cryptBlock t wk d.inverse (pack (runRounds t wk d (unpack b)))
    _ = pack (runRounds t wk d.inverse (runRounds t wk d (unpack b))) := cryptBlock_pack ..
    _ = pack (unpack b) := pack_pair (runRounds_inverse ..)
    _ = b := pack_unpack b

/-- Settles O13: each direction is the inverse of the other. -/
theorem decryptionInvertsEncryption : Obligations.DecryptionInvertsEncryption :=
  fun t wk b => ⟨cryptBlock_inverse t wk .encrypt b, cryptBlock_inverse t wk .decrypt b⟩

/-- With an all-zero table the round function is 0. -/
theorem roundF_zeroTable (n1 subkey : Word) : roundF (Vector.replicate 128 0) n1 subkey = 0 := by
  have substituted : subst (Vector.replicate 128 0) (modAdd n1 subkey) = 0 := eq_of_nibble_eq fun i => by
    rw [nibble_subst, sboxEntry, Vector.getElem_replicate]
    exact BitVec.extractLsb'_zero.symm
  rw [roundF, substituted]
  rfl

/-- With an all-zero table a swapping round is the exchange of the halves. -/
theorem roundPair_zeroTable (wk : WorkingKey) :
    roundPair (Vector.replicate 128 0) wk = fun p _ => p.swap := by
  funext p j
  rw [roundPair, roundF_zeroTable]
  exact Prod.ext (BitVec.xor_zero ..) rfl

/-- With an all-zero table the 32 exchanges cancel out, and the last round's undone swap is left. -/
theorem runRounds_zeroTable (wk : WorkingKey) (d : Direction) (h : Halves) :
    (runRounds (Vector.replicate 128 0) wk d h).pair = h.pair.swap := by
  have rounds : Even (keyOrder d ++ [0]).length := by cases d <;> decide
  have involutive : Function.Involutive (Prod.swap (α := Word) (β := Word)) := Prod.swap_swap
  rw [runRounds_pair, roundPair_zeroTable, List.foldl_const, involutive.iterate_even rounds, id]

/-- With equal sub-keys the rounds depend on the order of their indices by its length alone. -/
theorem foldl_swapRound_equalKeys (t : SBox) (k : Word) (js : List (Fin 8)) (h : Halves) :
    js.foldl (swapRound t (Vector.replicate 8 k)) h =
      (fun h => swapRound t (Vector.replicate 8 k) h 0)^[js.length] h := by
  have anyIndex : swapRound t (Vector.replicate 8 k) = fun h _ => swapRound t (Vector.replicate 8 k) h 0 := by
    funext h j
    simp [swapRound]
  rw [← List.foldl_const, ← anyIndex]

/-- Settles O14: the halves exchanged are the unpacking of the exchanged block; and both orders have 31 indices. -/
theorem degenerateTablesAndKeys : Obligations.DegenerateTablesAndKeys := by
  refine ⟨fun wk d b => ?_, fun t k b => ?_⟩
  · exact (pack_pair (runRounds_zeroTable wk d (unpack b))).trans
      (pack_unpack #v[b[4], b[5], b[6], b[7], b[0], b[1], b[2], b[3]])
  · have sameLength : (keyOrder .encrypt).length = (keyOrder .decrypt).length := rfl
    rw [cryptBlock, cryptBlock, runRounds, runRounds, foldl_swapRound_equalKeys, foldl_swapRound_equalKeys, sameLength]

end Sys2Proof.Machine
end

section
/-! Block commands and their inverses (spec/43_block_codec.md R160 to R166, with R148 of spec/42_feistel_engine.md). -/

namespace Sys2Proof.Machine

/-- Stretches of memory that hold the same bytes read alike byte by byte. -/
theorem read_eq_of_bytes_eq {m m' : Memory} {a b n : Nat} (h : m.bytes a n = m'.bytes b n) {i : Nat} (hi : i < n) :
    m.read (a + i) = m'.read (b + i) := by
  rw [← bytes_getElem m a n i hi, ← bytes_getElem m' b n i hi, h]

/-- Where no window is read after a window before it was written over it, every window written is the transform of the
source's original window (R164, R165, R166). -/
theorem windows_ecb {d : Direction} {n src dst : Nat} {s t : State} (hm : Memory.wf s.mem = true)
    (h : windows d n src dst s = some t) (apart : dst ≤ src ∨ src + 8 * n ≤ dst) {k : Nat} (hk : k < n) :
    t.mem.bytes (dst + 8 * k) 8 = cryptBlock s.sbox s.wk d (s.mem.bytes (src + 8 * k) 8) := by
  induction n generalizing src dst s k with
  | zero => omega
  | succ n ih =>
    obtain ⟨u, hu, ht⟩ := windows_succ_eq_some.1 h
    obtain ⟨-, -, rfl⟩ := window_eq_some.1 hu
    have hm' : Memory.wf (windowMem d src dst s) = true := wf_windowMem hm d src dst
    cases k with
    | zero =>
      calc t.mem.bytes dst 8
        _ = (windowMem d src dst s).bytes dst 8 := windows_bytes_outside hm' ht (by omega)
        _ = cryptBlock s.sbox s.wk d (s.mem.bytes src 8) := bytes_writeList hm dst _
    | succ k =>
      have next (a : Nat) : a + 8 * (k + 1) = a + 8 + 8 * k := by omega
      have source : (windowMem d src dst s).bytes (src + 8 + 8 * k) 8 = s.mem.bytes (src + 8 + 8 * k) 8 :=
        windows_bytes_outside hm ((windows_one ..).trans hu) (by omega)
      rw [next dst, next src, ← source]
      exact ih hm' ht (by omega) (by omega)

/-- A run of windows, then one of the other direction in place over its destination: this completes, with the source's
original bytes in the destination and every other byte as before both. -/
theorem windows_roundTrip {d : Direction} {n src dst : Nat} {s u : State} (hm : Memory.wf s.mem = true)
    (h : windows d n src dst s = some u) (apart : dst ≤ src ∨ src + 8 * n ≤ dst) :
    ∃ t, windows d.inverse n dst dst u = some t ∧ Memory.wf t.mem = true ∧
      (∀ i < 8 * n, t.mem.read (dst + i) = s.mem.read (src + i)) ∧
      ∀ a, (a < dst ∨ dst + 8 * n ≤ a) → t.mem.read a = s.mem.read a := by
  obtain ⟨⟨-, wk, sbox, -, backed, -, -⟩, -, -, hmu, keptFirst⟩ := windows_frame hm h
  have dstBacked : u.admitsAll dst (8 * n) = true := (admitsAll_congr backed ..).trans (windows_backed h).2
  obtain ⟨t, ht⟩ := windows_complete (d := d.inverse) dstBacked dstBacked
  obtain ⟨-, -, -, hmt, keptSecond⟩ := windows_frame hmu ht
  have restored {k : Nat} (hk : k < n) : t.mem.bytes (dst + 8 * k) 8 = s.mem.bytes (src + 8 * k) 8 := by
    rw [windows_ecb hmu ht (.inl le_rfl) hk, windows_ecb hm h apart hk, wk, sbox, cryptBlock_inverse]
  refine ⟨t, ht, hmt, fun i hi => ?_, fun a out => (keptSecond a out).trans (keptFirst a out)⟩
  have inWindow (a : Nat) : a + i = a + 8 * (i / 8) + i % 8 := by omega
  rw [inWindow dst, inWindow src]
  exact read_eq_of_bytes_eq (restored (by omega)) (by omega)

/-- In place, a run of windows and then one of the other direction give back the same memory. -/
theorem windows_roundTrip_inPlace {d : Direction} {n a : Nat} {s u : State} (hm : Memory.wf s.mem = true)
    (h : windows d n a a s = some u) : ∃ t, windows d.inverse n a a u = some t ∧ t.mem = s.mem := by
  obtain ⟨t, ht, hmt, inside, outside⟩ := windows_roundTrip hm h (.inl le_rfl)
  refine ⟨t, ht, Memory.ext_of_read hmt hm fun x => ?_⟩
  by_cases hx : a ≤ x ∧ x < a + 8 * n
  · rw [show x = a + (x - a) by omega]
    exact inside (x - a) (by omega)
  · exact outside x (by omega)

/-- A single-block command that completes in place is undone by the one of the other direction. -/
theorem singleBlock_roundTrip {d : Direction} {x : Word} {s u : State} (hm : Memory.wf s.mem = true)
    (h : singleBlock d x 8 x 8 s = .next u) (ok : u.err = .ok) :
    ∃ t, singleBlock d.inverse x 8 x 8 u = .next t ∧ t.err = .ok ∧ t.mem = s.mem := by
  obtain ⟨e, he, rfl⟩ | ⟨ready, slen, dlen, inX, -, v, hv, rfl⟩ := singleBlock_next h
  · exact absurd ok he
  · rw [← windows_one] at hv
    have stillReady : v.finish.ready = true := (windows_keepsRegisters hv).ready.trans ready
    obtain ⟨t, ht, mem⟩ := windows_roundTrip_inPlace hm hv
    refine ⟨t.finish, ?_, rfl, mem⟩
    rw [singleBlock_checked stillReady slen dlen inX inX, ← windows_one, completed_windows_finish, ht, completed_some]

/-- Settles O25: each command of a pair is the single-block command of one direction. -/
theorem oneBlockInPlaceRoundTrip : Obligations.OneBlockInPlaceRoundTrip := by
  intro s u x hm one two pair h ok
  obtain ⟨rfl, rfl⟩ | ⟨rfl, rfl⟩ : (one = _ ∧ two = _) ∨ (one = _ ∧ two = _) := by simpa using pair
  · exact singleBlock_roundTrip (d := .encrypt) hm h ok
  · exact singleBlock_roundTrip (d := .decrypt) hm h ok

/-- A buffer command that completes is undone by the one of the other direction, run in place over its destination. -/
theorem manyBlocks_roundTrip {d : Direction} {src slen dst dlen : Word} {s u : State} (hm : Memory.wf s.mem = true)
    (h : manyBlocks d src slen dst dlen s = .next u) (ok : u.err = .ok)
    (apart : dst.toNat ≤ src.toNat ∨ src.toNat + slen.toNat ≤ dst.toNat) :
    ∃ t, manyBlocks d.inverse dst slen dst slen u = .next t ∧ t.err = .ok ∧
      (∀ i < slen.toNat, t.mem.read (dst.toNat + i) = s.mem.read (src.toNat + i)) ∧
      ∀ a, (a < dst.toNat ∨ dst.toNat + slen.toNat ≤ a) → t.mem.read a = s.mem.read a := by
  obtain ⟨e, he, rfl⟩ | ⟨ready, whole, -, -, inDst, v, hv, rfl⟩ := manyBlocks_next h
  · exact absurd ok he
  · have len : 8 * (slen.toNat / 8) = slen.toNat := Nat.mul_div_cancel' (Nat.dvd_of_mod_eq_zero whole)
    have stillReady : v.finish.ready = true := (windows_keepsRegisters hv).ready.trans ready
    obtain ⟨t, ht, -, inside, outside⟩ := windows_roundTrip hm hv (by rwa [len])
    rw [len] at inside outside
    refine ⟨t.finish, ?_, rfl, inside, outside⟩
    rw [manyBlocks_checked stillReady whole le_rfl inDst inDst, completed_windows_finish, ht, completed_some]

/-- Settles O26: equal regions, and disjoint ones on either side, keep `apart`; the commands are those of one direction
each. -/
theorem bufferRoundTripRestores : Obligations.BufferRoundTripRestores := by
  intro s u src slen dst dlen hm one two pair h ok regions
  have apart : dst.toNat ≤ src.toNat ∨ src.toNat + slen.toNat ≤ dst.toNat := by
    obtain rfl | above | below := regions
    · exact .inl le_rfl
    · exact .inr above
    · exact .inl (by omega)
  obtain ⟨rfl, rfl⟩ | ⟨rfl, rfl⟩ : (one = _ ∧ two = _) ∨ (one = _ ∧ two = _) := by simpa using pair
  · exact manyBlocks_roundTrip (d := .encrypt) hm h ok apart
  · exact manyBlocks_roundTrip (d := .decrypt) hm h ok apart

end Sys2Proof.Machine
end

section
/-! Block commands that complete: what they write, what they keep, and the ECB law (spec/43_block_codec.md R160 to
R166). -/

namespace Sys2Proof.Machine

/-- Finishing a command keeps every register. -/
theorem KeepsRegisters.finish {s u : State} (h : KeepsRegisters s u) : KeepsRegisters s u.finish :=
  ⟨h.ready, h.wk, h.sbox, h.rom, h.backed, h.turns, h.firstError⟩

/-- A window writes the transform of its 8 source bytes as they were before it, also where it overlaps them. -/
theorem window_bytes {d : Direction} {src dst : Nat} {s t : State} (hm : Memory.wf s.mem = true)
    (h : window d src dst s = some t) : t.mem.bytes dst 8 = cryptBlock s.sbox s.wk d (s.mem.bytes src 8) := by
  obtain ⟨-, -, rfl⟩ := window_eq_some.1 h
  exact bytes_writeList hm dst _

/-- A run of windows over backed bytes runs to its end. -/
theorem windows_of_admits {n src dst : Nat} {s : State}
    (backed : ∀ i < 8 * n, s.admits (src + i) = true ∧ s.admits (dst + i) = true) (d : Direction) :
    ∃ u, windows d n src dst s = some u :=
  windows_complete (admitsAll_iff.2 fun i hi => (backed i hi).1) (admitsAll_iff.2 fun i hi => (backed i hi).2)

/-- Past its checks and with both windows backed, a single-block command completes with the source block transformed at
DST and all else as before. -/
theorem singleBlock_completes {s : State} {src slen dst dlen : Word} (hm : Memory.wf s.mem = true)
    (hr : s.ready = true) (hslen : 8 ≤ slen.toNat) (hdlen : 8 ≤ dlen.toNat) (hs : src.toNat + 8 ≤ 4294967296)
    (hd : dst.toNat + 8 ≤ 4294967296)
    (backed : ∀ i < 8, s.admits (src.toNat + i) = true ∧ s.admits (dst.toNat + i) = true) (d : Direction) :
    ∃ t, singleBlock d src slen dst dlen s = .next t ∧ t.err = .ok ∧ t.current = none ∧ KeepsRegisters s t ∧
      t.mem.bytes dst.toNat 8 = cryptBlock s.sbox s.wk d (s.mem.bytes src.toNat 8) ∧
      ∀ a, (a < dst.toNat ∨ dst.toNat + 8 ≤ a) → t.mem.read a = s.mem.read a := by
  obtain ⟨u, hu⟩ := windows_of_admits (n := 1) backed d
  obtain ⟨registers, -, -, -, outside⟩ := windows_frame hm hu
  rw [windows_one] at hu
  have transformed := window_bytes hm hu
  refine ⟨u.finish, ?_, rfl, rfl, registers.finish, transformed, outside⟩
  rw [singleBlock_checked hr hslen hdlen (inRange_iff.2 hs) (inRange_iff.2 hd), hu, completed_some]

/-- Settles O19: each command of the list is the single-block command of its direction. -/
theorem singleBlockCommandsTransformOneBlock : Obligations.SingleBlockCommandsTransformOneBlock := by
  intro s src slen dst dlen hm hr hslen hdlen hs hd backed one d pair
  obtain ⟨rfl, rfl⟩ | ⟨rfl, rfl⟩ : (one = _ ∧ d = _) ∨ (one = _ ∧ d = _) := by simpa using pair
  · exact singleBlock_completes hm hr hslen hdlen hs hd backed .encrypt
  · exact singleBlock_completes hm hr hslen hdlen hs hd backed .decrypt

/-- Past its checks and with both regions backed, a buffer command completes, and changes memory in [DST, DST+SLEN)
alone. -/
theorem manyBlocks_completes {s : State} {src slen dst dlen : Word} (hm : Memory.wf s.mem = true)
    (hr : s.ready = true) (whole : slen.toNat % 8 = 0) (fits : slen.toNat ≤ dlen.toNat)
    (hs : src.toNat + slen.toNat ≤ 4294967296) (hd : dst.toNat + slen.toNat ≤ 4294967296)
    (backed : ∀ i < slen.toNat, s.admits (src.toNat + i) = true ∧ s.admits (dst.toNat + i) = true) (d : Direction) :
    ∃ t, manyBlocks d src slen dst dlen s = .next t ∧ t.err = .ok ∧ t.current = none ∧ KeepsRegisters s t ∧
      ∀ a, (a < dst.toNat ∨ dst.toNat + slen.toNat ≤ a) → t.mem.read a = s.mem.read a := by
  have len : 8 * (slen.toNat / 8) = slen.toNat := Nat.mul_div_cancel' (Nat.dvd_of_mod_eq_zero whole)
  obtain ⟨u, hu⟩ := windows_of_admits (n := slen.toNat / 8) (by rwa [len]) d
  obtain ⟨registers, -, -, -, outside⟩ := windows_frame hm hu
  rw [len] at outside
  refine ⟨u.finish, ?_, rfl, rfl, registers.finish, outside⟩
  rw [manyBlocks_checked hr whole fits (inRange_iff.2 hs) (inRange_iff.2 hd), hu, completed_some]

/-- Settles O20: ENCN and DECN are the buffer command of one direction each. -/
theorem bufferCommandsComplete : Obligations.BufferCommandsComplete := by
  intro s src slen dst dlen hm hr whole fits hs hd backed i hi
  obtain rfl | rfl : i = _ ∨ i = _ := by simpa using hi
  · exact manyBlocks_completes hm hr whole fits hs hd backed .encrypt
  · exact manyBlocks_completes hm hr whole fits hs hd backed .decrypt

/-- Settles O21: a buffer command that completes has run its windows, and `windows_ecb` says what each has written. -/
theorem ecbTransformsEveryOriginalWindow : Obligations.EcbTransformsEveryOriginalWindow := by
  intro s t src slen dst dlen hm many d pair h ok apart k hk
  rw [exec_many pair] at h
  obtain ⟨u, hu, rfl⟩ := manyBlocks_windows h ok
  exact windows_ecb hm hu (by omega) hk

end Sys2Proof.Machine
end

section
/-! The errors of INIT and of the block commands, the first check that fails reported (spec/60_exceptions.md R202 to
R205, R207, R209, R210). -/

namespace Sys2Proof.Machine

/-- Settles O18: of the checks in `execInit`, those before the one that fails are passed. -/
theorem initErrorsInOrder : Obligations.InitErrorsInOrder := by
  intro s sel kaddr klen fails
  refine ⟨fun hk => if_pos hk, fun hk hs => ?_, fun hk hs hr => ?_⟩
  · exact (if_neg (not_not_intro hk)).trans (dif_neg (Nat.not_lt.2 hs))
  · calc execInit sel kaddr klen s
      _ = if inRange kaddr.toNat 32 then completed (initialise kaddr s.rom[sel.toNat] s) else raised .rangeError s :=
        (if_neg (not_not_intro hk)).trans (dif_pos hs)
      _ = raised .rangeError s := if_neg (by simp [inRange_eq_false.2 hr])

/-- The single-block command with one check for each of its errors (R204, R205, R207). -/
theorem singleBlock_checks (d : Direction) (src slen dst dlen : Word) (s : State) :
    singleBlock d src slen dst dlen s =
      if s.ready = false then raised .engineNotInitialized s
      else if slen.toNat < 8 ∨ dlen.toNat < 8 then raised .bufferTooShort s
      else if 4294967296 < src.toNat + 8 ∨ 4294967296 < dst.toNat + 8 then raised .rangeError s
      else completed (window d src.toNat dst.toNat s) := by
  simp only [singleBlock, inRange_eq_false, ite_or]

/-- The buffer command with one check for each of its errors (R204, R205, R207). -/
theorem manyBlocks_checks (d : Direction) (src slen dst dlen : Word) (s : State) :
    manyBlocks d src slen dst dlen s =
      if s.ready = false then raised .engineNotInitialized s
      else if slen.toNat % 8 ≠ 0 ∨ dlen.toNat < slen.toNat then raised .bufferTooShort s
      else if 4294967296 < src.toNat + slen.toNat ∨ 4294967296 < dst.toNat + slen.toNat then raised .rangeError s
      else completed (windows d (slen.toNat / 8) src.toNat dst.toNat s) := by
  simp only [manyBlocks, inRange_eq_false, ite_or]

/-- Each error of the single-block command, the checks before its own passed (R209). -/
theorem singleBlock_errors (d : Direction) (src slen dst dlen : Word) (s : State) :
    (s.ready = false → singleBlock d src slen dst dlen s = raised .engineNotInitialized s) ∧
    (s.ready = true → slen.toNat < 8 ∨ dlen.toNat < 8 →
      singleBlock d src slen dst dlen s = raised .bufferTooShort s) ∧
    (s.ready = true → 8 ≤ slen.toNat → 8 ≤ dlen.toNat →
      4294967296 < src.toNat + 8 ∨ 4294967296 < dst.toNat + 8 →
      singleBlock d src slen dst dlen s = raised .rangeError s) := by
  rw [singleBlock_checks]
  refine ⟨fun hr => if_pos hr, fun hr short => ?_, fun hr hslen hdlen out => ?_⟩
  · rw [if_neg (by simp [hr]), if_pos short]
  · rw [if_neg (by simp [hr]), if_neg (by omega), if_pos out]

/-- Each error of the buffer command, the checks before its own passed (R209). -/
theorem manyBlocks_errors (d : Direction) (src slen dst dlen : Word) (s : State) :
    (s.ready = false → manyBlocks d src slen dst dlen s = raised .engineNotInitialized s) ∧
    (s.ready = true → slen.toNat % 8 ≠ 0 ∨ dlen.toNat < slen.toNat →
      manyBlocks d src slen dst dlen s = raised .bufferTooShort s) ∧
    (s.ready = true → slen.toNat % 8 = 0 → slen.toNat ≤ dlen.toNat →
      4294967296 < src.toNat + slen.toNat ∨ 4294967296 < dst.toNat + slen.toNat →
      manyBlocks d src slen dst dlen s = raised .rangeError s) := by
  rw [manyBlocks_checks]
  refine ⟨fun hr => if_pos hr, fun hr short => ?_, fun hr whole fits out => ?_⟩
  · rw [if_neg (by simp [hr]), if_pos short]
  · rw [if_neg (by simp [hr]), if_neg (by omega), if_pos out]

/-- Settles O24: ENCB and DECB are the single-block command, ENCN and DECN the buffer command, of one direction each. -/
theorem blockErrorsInOrder : Obligations.BlockErrorsInOrder := by
  intro s src slen dst dlen fails
  refine ⟨fun i hi => ?_, fun i hi => ?_⟩
  · obtain rfl | rfl : i = _ ∨ i = _ := by simpa using hi
    · exact singleBlock_errors .encrypt src slen dst dlen s
    · exact singleBlock_errors .decrypt src slen dst dlen s
  · obtain rfl | rfl : i = _ ∨ i = _ := by simpa using hi
    · exact manyBlocks_errors .encrypt src slen dst dlen s
    · exact manyBlocks_errors .decrypt src slen dst dlen s

end Sys2Proof.Machine
end

section
/-! STATUS as a channel: completion and STATUS follow from READY, the platform map and the operands
(spec/60_exceptions.md R208, R239). -/

namespace Sys2Proof.Machine

/-- STATUS shows the accepted packet's presence, READY and ERR alone (R30). -/
theorem status_congr {s t : State} (hc : t.current = s.current) (hr : t.ready = s.ready) (he : t.err = s.err) :
    t.status = s.status := by
  simp only [State.status, State.busy, hc, hr, he]

/-- Both outcomes are next states with the same STATUS, or both are the same fault. -/
inductive SameStatus : Result → Result → Prop where
  | next {t t' : State} (h : t'.status = t.status) : SameStatus (.next t) (.next t')
  | fault (f : Fault) : SameStatus (.fault f) (.fault f)

/-- Two operations that are stuck together, and end with the same READY, complete with the same STATUS. -/
theorem completed_sameStatus {o o' : Option State} (stuck : o = none ↔ o' = none)
    (ready : ∀ u u', o = some u → o' = some u' → u'.ready = u.ready) :
    SameStatus (completed o) (completed o') := by
  match o, o' with
  | none, none => exact .fault _
  | none, some _ => exact absurd (stuck.1 rfl) nofun
  | some _, none => exact absurd (stuck.2 rfl) nofun
  | some u, some u' => exact .next (status_congr rfl (ready u u' rfl rfl) rfl)

/-- READY and the platform map fix a command's completion and the STATUS it leaves. -/
theorem exec_sameStatus (i : Instr) {s s' : State} (hr : s.ready = s'.ready) (hb : s.backed = s'.backed) :
    SameStatus (exec i s) (exec i s') := by
  cases exec_course i s.ready with
  | error e run =>
    rw [run s rfl, run s' hr.symm]
    exact .next (status_congr rfl hr.symm rfl)
  | load sel kaddr klen hi hs run =>
    rw [run s rfl, run s' hr.symm]
    refine completed_sameStatus ?_ fun u u' hu hu' => ?_
    · simp only [initialise_eq_none, admits_congr hb]
    · obtain ⟨-, rfl⟩ := initialise_eq_some.1 hu
      obtain ⟨-, rfl⟩ := initialise_eq_some.1 hu'
      rfl
  | transform d n src dst run =>
    rw [run s rfl, run s' hr.symm]
    refine completed_sameStatus ?_ fun u u' hu hu' => ?_
    · simp only [windows_eq_none, admits_congr hb]
    · rw [(windows_keepsRegisters hu).ready, (windows_keepsRegisters hu').ready, hr]

/-- Settles O31: both outcomes are next states, or both are the fault. -/
theorem statusIndependentOfKeyTableAndData : Obligations.StatusIndependentOfKeyTableAndData := by
  intro i s s' hr hb
  have same := exec_sameStatus i hr hb
  refine ⟨fun t ht => ?_, fun hf => ?_⟩
  · rw [ht] at same
    generalize exec i s' = r at same ⊢
    cases same with
    | next h => exact ⟨_, rfl, h⟩
  · rw [hf] at same
    generalize exec i s' = r at same ⊢
    cases same
    rfl

end Sys2Proof.Machine
end

section
/-! The idle engine (spec/60_exceptions.md R219; spec/70_reset_and_hazards.md R232). -/

namespace Sys2Proof.Machine

/-- With no packet accepted, the engine's turn keeps the state. -/
theorem engineTurn_idle {s : State} (hc : s.current = none) : engineTurn s = .next s := by
  simp only [engineTurn, hc]

/-- Settles O33: each way the turn comes to the engine, the step is its idle turn. -/
theorem idleEngineKeepsItsState : Obligations.IdleEngineKeepsItsState := by
  refine fun s hc => ⟨fun hs => ?_, fun ts hs => ?_⟩
  · rw [step_of_turns_nil hs, engineTurn_idle hc]
  · rw [step_of_turns_cons hs]
    exact engineTurn_idle (s := s.withTurns ts) hc

end Sys2Proof.Machine
end

section
/-! What the host must not do while a command executes, and what a reset leaves of an abandoned command
(spec/70_reset_and_hazards.md R231, R235). -/

namespace Sys2Proof.Machine

/-- The regions of a block command are (SRC, SLEN) and (DST, DLEN) (R235). -/
theorem regions_of_block {i : Instr} {src slen dst dlen : Word}
    (h : i ∈ [Instr.encb src slen dst dlen, .decb src slen dst dlen, .encn src slen dst dlen,
      .decn src slen dst dlen]) :
    sourceOf i = ⟨src.toNat, slen.toNat⟩ ∧ destinationOf i = [⟨dst.toNat, dlen.toNat⟩] := by
  obtain rfl | rfl | rfl | rfl : i = _ ∨ i = _ ∨ i = _ ∨ i = _ := by simpa using h
  all_goals exact ⟨rfl, rfl⟩

theorem inRegions_cons {r : Region} {rs : List Region} {a : Nat} :
    inRegions (r :: rs) a = true ↔ (r.base ≤ a ∧ a < r.base + r.size) ∨ inRegions rs a = true := by
  rw [inRegions, List.any_cons, Bool.or_eq_true, inRegion_iff, inRegions]

/-- The engine guards against writes the source and the destination of the command the accepted packet decodes to. -/
theorem guardedWrites_of_decode_ok {s : State} {p : Packet} {i : Instr} (hc : s.current = some p)
    (hd : decode p = .ok i) : s.guardedWrites = sourceOf i :: destinationOf i := by
  simp only [State.guardedWrites, hc, packetRegions, hd]

/-- An illegal packet has no destination. -/
theorem guardedReads_of_decode_error {s : State} {p : Packet} {why : Illegal} (hc : s.current = some p)
    (hd : decode p = .error why) : s.guardedReads = [] := by
  simp only [State.guardedReads, hc, packetDestination, hd]

theorem presentTurn_busy {s : State} {p : Packet} (h : s.current = some p) (q : Packet) :
    presentTurn q s = .refused .packetWhileBusy := by
  simp [presentTurn, State.busy, h]

theorem writeTurn_guarded {s : State} {a : Word} (h : inRegions s.guardedWrites a.toNat = true) (b : Byte) :
    writeTurn a b s = .refused .writeWhileBusy := if_pos h

theorem readTurn_guarded {s : State} {a : Word} (h : inRegions s.guardedReads a.toNat = true) :
    readTurn a s = .refused .readWhileBusy := if_pos h

/-- A reset that abandons no destination leaves memory as it was. -/
theorem resetEngine_mem_of_guardedReads_nil {s : State} (h : s.guardedReads = []) : s.resetEngine.mem = s.mem := by
  rw [State.resetEngine_mem, h]
  rfl

/-- Settles O37: a reset frees the bytes that are guarded against reads, for a block command (DST, DLEN) and otherwise
none. -/
theorem abandonedCommandDamagesItsDestinationAlone : Obligations.AbandonedCommandDamagesItsDestinationAlone := by
  intro s ts p hm hs hc
  have busy : (s.withTurns ts).current = some p := hc
  refine ⟨(s.withTurns ts).resetEngine, step_of_turns_cons hs, rfl, rfl, fun why hd => ?_, fun sel kaddr klen hd => ?_,
    fun src slen dst dlen ⟨i, block, hd⟩ a out => ?_⟩
  · exact resetEngine_mem_of_guardedReads_nil (guardedReads_of_decode_error busy hd)
  · exact resetEngine_mem_of_guardedReads_nil (guardedReads_of_decode_ok busy hd)
  · refine resetEngine_read_outside (s := s.withTurns ts) hm ?_
    rw [guardedReads_of_decode_ok busy hd, (regions_of_block block).2]
    exact inRegions_cons_eq_false.2 ⟨out, rfl⟩

/-- Settles O35: a busy engine takes no packet, and the bytes named are in its guarded regions. -/
theorem hostHazardsAreRefused : Obligations.HostHazardsAreRefused := by
  intro s ts p hc
  have busy : (s.withTurns ts).current = some p := hc
  refine ⟨fun q hs => ?_, fun sel kaddr klen hd a b hs lo hi => ?_,
    fun src slen dst dlen ⟨i, block, hd⟩ => ⟨fun a b hs named => ?_, fun a hs lo hi => ?_⟩⟩
  · rw [step_of_turns_cons hs]
    exact presentTurn_busy busy q
  · rw [step_of_turns_cons hs]
    refine writeTurn_guarded ?_ b
    rw [guardedWrites_of_decode_ok busy hd]
    exact inRegions_cons.2 (.inl ⟨lo, hi⟩)
  · obtain ⟨source, destination⟩ := regions_of_block block
    rw [step_of_turns_cons hs]
    refine writeTurn_guarded ?_ b
    rw [guardedWrites_of_decode_ok busy hd, source, destination]
    exact inRegions_cons.2 (named.imp_right fun inDst => inRegions_cons.2 (.inl inDst))
  · rw [step_of_turns_cons hs]
    refine readTurn_guarded ?_
    rw [guardedReads_of_decode_ok busy hd, (regions_of_block block).2]
    exact inRegions_cons.2 (.inl ⟨lo, hi⟩)

end Sys2Proof.Machine
end
